-- ==== Sys2Proof/Word.lean ====
section
/-! DEFINITION. The word types of the spec (spec/00_scope.md R7, R8): a message byte, a register-port word, a 64-bit accumulator. -/

namespace Sys2Proof

/-- A message byte, `0 .. 255`, unsigned (R63). -/
abbrev Byte := BitVec 8

/-- A 32-bit unsigned value: a register-port word, a seed, an accumulator of H32 or X86 (R7). -/
abbrev Word32 := BitVec 32

/-- A 64-bit unsigned value: an accumulator of X64 (R7), and the container of a length of `LEN_W <= 64` bits. -/
abbrev Word64 := BitVec 64

end Sys2Proof
end

