-- ==== Sys2Proof/Syntax.lean ====
section
/-! DEFINITION. The syntax: engines, phases, and one constructor of `Instr` per row of spec/opcode_table.json
(12 host writes, 21 host reads, 9 sequencer operations; spec/30_encoding.md R90). -/

namespace Sys2Proof

/-- The three engines (R1, R230). -/
inductive Engine where
  | h32
  | x86
  | x64
  deriving DecidableEq, Repr

/-- The five phases of an engine's sequencer (R28). Values 5, 6 and 7 of the three-bit code are no phase (U7). -/
inductive Phase where
  | idle
  | block
  | tail
  | final
  | done
  deriving DecidableEq, Repr

/-- The operations. A START carries the whole data word `DATA[31:0]` that was written to CTRL: bit 0 must be 1 for the
word to be a START (`WellFormed`), bits 31 to 1 are ignored (R95, R200). The writes of SEED, LEN and LEN_HI carry
`DATA[31:0]`. Reads and sequencer operations have no explicit operand (R97). -/
inductive Instr where
  /-- `H32.START` (R140). -/
  | h32Start (data : Word32)
  /-- `H32.WR_SEED` (R202). -/
  | h32WrSeed (data : Word32)
  /-- `H32.WR_LEN` (R203). -/
  | h32WrLen (data : Word32)
  /-- `H32.WR_LEN_HI` (R203). -/
  | h32WrLenHi (data : Word32)
  /-- `X86.START` (R160). -/
  | x86Start (data : Word32)
  /-- `X86.WR_SEED` (R202). -/
  | x86WrSeed (data : Word32)
  /-- `X86.WR_LEN` (R203). -/
  | x86WrLen (data : Word32)
  /-- `X86.WR_LEN_HI` (R203). -/
  | x86WrLenHi (data : Word32)
  /-- `X64.START` (R180). -/
  | x64Start (data : Word32)
  /-- `X64.WR_SEED` (R202). -/
  | x64WrSeed (data : Word32)
  /-- `X64.WR_LEN` (R203). -/
  | x64WrLen (data : Word32)
  /-- `X64.WR_LEN_HI` (R203). -/
  | x64WrLenHi (data : Word32)
  /-- `H32.RD_STATUS` (R204). -/
  | h32RdStatus
  /-- `H32.RD_SEED` (R207). -/
  | h32RdSeed
  /-- `H32.RD_LEN` (R207). -/
  | h32RdLen
  /-- `H32.RD_LEN_HI` (R207). -/
  | h32RdLenHi
  /-- `H32.RD_DIGEST0` (R205). -/
  | h32RdDigest0
  /-- `X86.RD_STATUS` (R204). -/
  | x86RdStatus
  /-- `X86.RD_SEED` (R207). -/
  | x86RdSeed
  /-- `X86.RD_LEN` (R207). -/
  | x86RdLen
  /-- `X86.RD_LEN_HI` (R207). -/
  | x86RdLenHi
  /-- `X86.RD_DIGEST0` (R205). -/
  | x86RdDigest0
  /-- `X86.RD_DIGEST1` (R205). -/
  | x86RdDigest1
  /-- `X86.RD_DIGEST2` (R205). -/
  | x86RdDigest2
  /-- `X86.RD_DIGEST3` (R205). -/
  | x86RdDigest3
  /-- `X64.RD_STATUS` (R204). -/
  | x64RdStatus
  /-- `X64.RD_SEED` (R207). -/
  | x64RdSeed
  /-- `X64.RD_LEN` (R207). -/
  | x64RdLen
  /-- `X64.RD_LEN_HI` (R207). -/
  | x64RdLenHi
  /-- `X64.RD_DIGEST0` (R205). -/
  | x64RdDigest0
  /-- `X64.RD_DIGEST1` (R205). -/
  | x64RdDigest1
  /-- `X64.RD_DIGEST2` (R205). -/
  | x64RdDigest2
  /-- `X64.RD_DIGEST3` (R205). -/
  | x64RdDigest3
  /-- `H32.BLOCK` (R141). -/
  | h32Block
  /-- `H32.TAIL` (R142). -/
  | h32Tail
  /-- `H32.FINAL` (R143). -/
  | h32Final
  /-- `X86.BLOCK` (R161). -/
  | x86Block
  /-- `X86.TAIL` (R162). -/
  | x86Tail
  /-- `X86.FINAL` (R163). -/
  | x86Final
  /-- `X64.BLOCK` (R181). -/
  | x64Block
  /-- `X64.TAIL` (R182). -/
  | x64Tail
  /-- `X64.FINAL` (R183). -/
  | x64Final
  deriving DecidableEq, Repr

end Sys2Proof
end

