-- ==== Sys2Proof/Config.lean ====
section
/-! DEFINITION. What the spec leaves open as a value: constants without a body, of which no proof can learn anything
(spec/93_implementation_defined.md U1, U2, U3, U10). -/

namespace Sys2Proof

/-- The free values of an engine, by the number of the draw: a DIGEST read outside DONE (U1, R205), the digest of a run
whose message changed (U2, R70), the working registers after a reset event (U3, R40). Each register takes as many low bits
of a draw as it has. Logs 5, 6, 9. -/
opaque Config.free : Engine → Nat → Word64

/-- The free choice of the engine that moves when several are busy and the schedule in State has run out (U10, R230), by
the number of the choice. Log 10. -/
opaque Config.choose : Nat → Nat

end Sys2Proof
end

