-- ==== Sys2Proof/WellFormed.lean ====
section
/-! DEFINITION. Which terms of `Instr` are instructions of the hardware (spec/30_encoding.md R95, R97). -/

namespace Sys2Proof

/-- A write to CTRL is a START only where bit 0 of its data is 1 (R95, R200); the word with bit 0 clear has no mnemonic and
no effect (R98 a, R210). Every other operand is an unrestricted 32-bit word (R202, R203). -/
def Instr.wellFormed : Instr → Bool
  | .h32Start data => data.getLsbD 0
  | .x86Start data => data.getLsbD 0
  | .x64Start data => data.getLsbD 0
  | .h32WrSeed _ => true
  | .h32WrLen _ => true
  | .h32WrLenHi _ => true
  | .x86WrSeed _ => true
  | .x86WrLen _ => true
  | .x86WrLenHi _ => true
  | .x64WrSeed _ => true
  | .x64WrLen _ => true
  | .x64WrLenHi _ => true
  | .h32RdStatus => true
  | .h32RdSeed => true
  | .h32RdLen => true
  | .h32RdLenHi => true
  | .h32RdDigest0 => true
  | .x86RdStatus => true
  | .x86RdSeed => true
  | .x86RdLen => true
  | .x86RdLenHi => true
  | .x86RdDigest0 => true
  | .x86RdDigest1 => true
  | .x86RdDigest2 => true
  | .x86RdDigest3 => true
  | .x64RdStatus => true
  | .x64RdSeed => true
  | .x64RdLen => true
  | .x64RdLenHi => true
  | .x64RdDigest0 => true
  | .x64RdDigest1 => true
  | .x64RdDigest2 => true
  | .x64RdDigest3 => true
  | .h32Block => true
  | .h32Tail => true
  | .h32Final => true
  | .x86Block => true
  | .x86Tail => true
  | .x86Final => true
  | .x64Block => true
  | .x64Tail => true
  | .x64Final => true

end Sys2Proof
end

