-- ==== Sys2Proof/Decode.lean ====
section
/-! DEFINITION. Decoding and encoding of host transactions and sequencer selectors (spec/30_encoding.md). There is no
instruction memory (R90): what is decoded is a transaction on the register port or the selector of an engine's next step. -/

namespace Sys2Proof

/-- The number of an engine, the field `ENG` (R91, R93). -/
def engCode : Engine → BitVec 2
  | .h32 => 0
  | .x86 => 1
  | .x64 => 2

/-- The three-bit code of a phase (R28). -/
def phaseCode : Phase → BitVec 3
  | .idle => 0
  | .block => 1
  | .tail => 2
  | .final => 3
  | .done => 4

/-- The selector `S[4:0] = ENG[1:0] ∥ PHASE[2:0]` of an engine in a phase (R93). -/
def selector (e : Engine) (p : Phase) : BitVec 5 :=
  engCode e ++ phaseCode p

/-- The three formats (R90): a host write `T[39:0] = A[7:0] ∥ D[31:0]` (R91), a host read `A[7:0]` (R92), a sequencer
selector `S[4:0]` (R93). -/
inductive Request where
  | write (T : BitVec 40)
  | read (A : BitVec 8)
  | select (S : BitVec 5)
  deriving DecidableEq, Repr

/-- What a request names. Decoding is total (R98): a request that names no row of the opcode table falls under one of the
named classes below. -/
inductive Decoded where
  /-- A row of the opcode table. -/
  | instr (i : Instr)
  /-- A host write that matches no row: no effect (R98 a). -/
  | ignoredWrite
  /-- A host read that matches no row: returns 0, no effect (R98 b). -/
  | zeroRead
  /-- The selector of an engine in IDLE or DONE: the engine has no step (R94). -/
  | noStep
  /-- A selector with `PHASE` 5 to 7 or `ENG` 3: it names nothing and cannot occur (R98 d, U7). -/
  | unnamedSelector
  /-- `A[1:0] ≠ 0`: no encoding of this interface (R98 e, R206, U5). -/
  | misaligned
  deriving DecidableEq, Repr

/-- The host writes of R95, by bank and offset; every other aligned address is a write without effect (R98 a). -/
def decodeWrite (A : BitVec 8) (D : Word32) : Decoded :=
  if A.extractLsb' 0 2 ≠ 0 then .misaligned
  else
    match (A.extractLsb' 6 2).toNat, (A.extractLsb' 0 6).toNat with
    | 0, 0x00 => if D.getLsbD 0 then .instr (.h32Start D) else .ignoredWrite
    | 0, 0x08 => .instr (.h32WrSeed D)
    | 0, 0x0C => .instr (.h32WrLen D)
    | 0, 0x10 => .instr (.h32WrLenHi D)
    | 1, 0x00 => if D.getLsbD 0 then .instr (.x86Start D) else .ignoredWrite
    | 1, 0x08 => .instr (.x86WrSeed D)
    | 1, 0x0C => .instr (.x86WrLen D)
    | 1, 0x10 => .instr (.x86WrLenHi D)
    | 2, 0x00 => if D.getLsbD 0 then .instr (.x64Start D) else .ignoredWrite
    | 2, 0x08 => .instr (.x64WrSeed D)
    | 2, 0x0C => .instr (.x64WrLen D)
    | 2, 0x10 => .instr (.x64WrLenHi D)
    | _, _ => .ignoredWrite

/-- The host reads of R102, by bank and offset; every other aligned address reads 0 (R98 b). -/
def decodeRead (A : BitVec 8) : Decoded :=
  if A.extractLsb' 0 2 ≠ 0 then .misaligned
  else
    match (A.extractLsb' 6 2).toNat, (A.extractLsb' 0 6).toNat with
    | 0, 0x04 => .instr .h32RdStatus
    | 0, 0x08 => .instr .h32RdSeed
    | 0, 0x0C => .instr .h32RdLen
    | 0, 0x10 => .instr .h32RdLenHi
    | 0, 0x20 => .instr .h32RdDigest0
    | 1, 0x04 => .instr .x86RdStatus
    | 1, 0x08 => .instr .x86RdSeed
    | 1, 0x0C => .instr .x86RdLen
    | 1, 0x10 => .instr .x86RdLenHi
    | 1, 0x20 => .instr .x86RdDigest0
    | 1, 0x24 => .instr .x86RdDigest1
    | 1, 0x28 => .instr .x86RdDigest2
    | 1, 0x2C => .instr .x86RdDigest3
    | 2, 0x04 => .instr .x64RdStatus
    | 2, 0x08 => .instr .x64RdSeed
    | 2, 0x0C => .instr .x64RdLen
    | 2, 0x10 => .instr .x64RdLenHi
    | 2, 0x20 => .instr .x64RdDigest0
    | 2, 0x24 => .instr .x64RdDigest1
    | 2, 0x28 => .instr .x64RdDigest2
    | 2, 0x2C => .instr .x64RdDigest3
    | _, _ => .zeroRead

/-- The sequencer map of R94, by engine and phase. -/
def decodeSelect (S : BitVec 5) : Decoded :=
  match (S.extractLsb' 3 2).toNat, (S.extractLsb' 0 3).toNat with
  | 0, 1 => .instr .h32Block
  | 0, 2 => .instr .h32Tail
  | 0, 3 => .instr .h32Final
  | 1, 1 => .instr .x86Block
  | 1, 2 => .instr .x86Tail
  | 1, 3 => .instr .x86Final
  | 2, 1 => .instr .x64Block
  | 2, 2 => .instr .x64Tail
  | 2, 3 => .instr .x64Final
  | 0, 0 => .noStep
  | 0, 4 => .noStep
  | 1, 0 => .noStep
  | 1, 4 => .noStep
  | 2, 0 => .noStep
  | 2, 4 => .noStep
  | _, _ => .unnamedSelector

/-- The decoder: total on every request (R98). -/
def decode : Request → Decoded
  | .write T => decodeWrite (T.extractLsb' 32 8) (T.extractLsb' 0 32)
  | .read A => decodeRead A
  | .select S => decodeSelect S

/-- The instruction a decoded request names, where it names one. -/
def Decoded.instr? : Decoded → Option Instr
  | .instr i => some i
  | .ignoredWrite => none
  | .zeroRead => none
  | .noStep => none
  | .unnamedSelector => none
  | .misaligned => none

/-- The request of an instruction (R95, R102, R94): the address with the data after it, the address, or the selector. -/
def encode : Instr → Request
  | .h32Start data => .write (0x00#8 ++ data)
  | .h32WrSeed data => .write (0x08#8 ++ data)
  | .h32WrLen data => .write (0x0C#8 ++ data)
  | .h32WrLenHi data => .write (0x10#8 ++ data)
  | .x86Start data => .write (0x40#8 ++ data)
  | .x86WrSeed data => .write (0x48#8 ++ data)
  | .x86WrLen data => .write (0x4C#8 ++ data)
  | .x86WrLenHi data => .write (0x50#8 ++ data)
  | .x64Start data => .write (0x80#8 ++ data)
  | .x64WrSeed data => .write (0x88#8 ++ data)
  | .x64WrLen data => .write (0x8C#8 ++ data)
  | .x64WrLenHi data => .write (0x90#8 ++ data)
  | .h32RdStatus => .read 0x04#8
  | .h32RdSeed => .read 0x08#8
  | .h32RdLen => .read 0x0C#8
  | .h32RdLenHi => .read 0x10#8
  | .h32RdDigest0 => .read 0x20#8
  | .x86RdStatus => .read 0x44#8
  | .x86RdSeed => .read 0x48#8
  | .x86RdLen => .read 0x4C#8
  | .x86RdLenHi => .read 0x50#8
  | .x86RdDigest0 => .read 0x60#8
  | .x86RdDigest1 => .read 0x64#8
  | .x86RdDigest2 => .read 0x68#8
  | .x86RdDigest3 => .read 0x6C#8
  | .x64RdStatus => .read 0x84#8
  | .x64RdSeed => .read 0x88#8
  | .x64RdLen => .read 0x8C#8
  | .x64RdLenHi => .read 0x90#8
  | .x64RdDigest0 => .read 0xA0#8
  | .x64RdDigest1 => .read 0xA4#8
  | .x64RdDigest2 => .read 0xA8#8
  | .x64RdDigest3 => .read 0xAC#8
  | .h32Block => .select 0b00001#5
  | .h32Tail => .select 0b00010#5
  | .h32Final => .select 0b00011#5
  | .x86Block => .select 0b01001#5
  | .x86Tail => .select 0b01010#5
  | .x86Final => .select 0b01011#5
  | .x64Block => .select 0b10001#5
  | .x64Tail => .select 0b10010#5
  | .x64Final => .select 0b10011#5

/-- The request whose bits, in the opcode table's numbering, are `w` out of `nbits`. The table's rows have 40 bits
(HOSTWR), 8 bits (HOSTRD) and 5 bits (SEQ), so in whole bytes a SEQ row has 8 bits like a HOSTRD row. The two are told
apart by bits 1 and 0: every HOSTRD row has them 00 (R92), every SEQ row has `PHASE` 1, 2 or 3 there (R94). See log 15. -/
def tableRequest (nbits w : Nat) : Option Request :=
  if 2 ^ nbits ≤ w then none
  else if nbits ≤ 5 then some (.select (BitVec.ofNat 5 w))
  else if nbits ≤ 8 then
    if w % 4 ≠ 0 ∧ w < 32 then some (.select (BitVec.ofNat 5 w)) else some (.read (BitVec.ofNat 8 w))
  else if nbits ≤ 40 then some (.write (BitVec.ofNat 40 w))
  else none

/-- The instruction the decoder reads from a word of the opcode table. -/
def decodeTableWord (nbits w : Nat) : Option Instr :=
  (tableRequest nbits w).bind fun r => (decode r).instr?

end Sys2Proof
end

