-- ==== Sys2Proof/Machine/State.lean ====
section
/-! DEFINITION. The state of the hardware (spec/10_state.md), its parameters, its message spaces and the events still to come;
the faults (none) and refusals; the state after reset. -/

namespace Sys2Proof.Machine

/-- A message space: the bytes that differ from what an unlisted offset reads as, by strictly rising offset
(R39, R60; log 8). -/
abbrev Memory := List Host.Cell

/-- What one engine holds beside its accumulators (R20): the host registers SEED and LEN (R30, R31), the latched length
`len_q`, the offset `off` (R26), the phase (R27, R28). The three lengths have `LEN_W` bits and are held zero-extended
(log 13). `disturbed` and `draws` are the model's own (logs 9 and 7). -/
structure Ctl where
  seed : Word32
  len : Word64
  lenQ : Word64
  off : Word64
  phase : Phase
  /-- A message byte below `len_q` changed during this run (R70, R254). -/
  disturbed : Bool
  /-- How many free values this engine has drawn. -/
  draws : Nat
  deriving DecidableEq, Repr

/-- The engine H32: one 32-bit accumulator (R21). -/
structure H32 where
  ctl : Ctl
  h1 : Word32
  deriving DecidableEq, Repr

/-- The engine X86: four 32-bit accumulators (R22). -/
structure X86 where
  ctl : Ctl
  h1 : Word32
  h2 : Word32
  h3 : Word32
  h4 : Word32
  deriving DecidableEq, Repr

/-- The engine X64: two 64-bit accumulators (R23). -/
structure X64 where
  ctl : Ctl
  h1 : Word64
  h2 : Word64
  deriving DecidableEq, Repr

/-- An event at the hardware's ports, or the turn of an engine. Each is one atomic step (R12, R224). -/
inductive Input where
  /-- A host write, the word `T` of R91. -/
  | hostWrite (T : BitVec 40)
  /-- A host read at address `A` (R92). -/
  | hostRead (A : BitVec 8)
  /-- Engine `e` takes its next step, where it has one (R27). -/
  | engineTurn (e : Engine)
  /-- The reset event (R250). -/
  | reset
  /-- The platform changes the byte of `e`'s message space at an offset (R212, R254). -/
  | messageByte (e : Engine) (off : Word64) (b : Byte)
  deriving DecidableEq, Repr

/-- The machine. -/
structure State where
  /-- The parameter `LEN_W` (R7, log 3): no step changes it. -/
  lenW : Nat
  h32 : H32
  x86 : X86
  x64 : X64
  /-- The message spaces `msg(e)` (R39, R60). -/
  msgH32 : Memory
  msgX86 : Memory
  msgX64 : Memory
  /-- The words that host reads returned (R206), newest first (log 2). -/
  answers : List Word32
  /-- The events still to come, oldest first (log 1). -/
  inputs : List Input
  /-- How many free scheduling choices have been made (log 10). -/
  turns : Nat
  deriving DecidableEq, Repr

/-- The faults: none. "The hardware raises no synchronous exception. The set of exception causes is empty" (R220), so nobody
raises one; that is exact, neither safe nor unsafe. -/
inductive Fault where
  deriving DecidableEq, Repr

/-- Why a step can be refused. -/
inductive Refusal where
  /-- An instruction whose meaning is not written yet: raised by `exec`'s arms only; safe. -/
  | notModelled (mnemonic : String)
  /-- A host access with `A[1:0] ≠ 0`, which "cannot be expressed on this port" and whose effect is UNSPECIFIED (R206, U5):
  raised by the step of such a host transaction; safe (log 11). -/
  | misalignedAccess
  /-- A selector with `PHASE` 5 to 7 or `ENG` 3, which names nothing and cannot occur (R98 d, U7): raised for such a
  request by `runDecoded`; no step of the machine makes one; safe. -/
  | unnamedSelector
  /-- The platform changes a byte at an offset of `2^LEN_W` or more, where no message space has one (R69): raised by the
  step of such a `messageByte`; safe (log 17). -/
  | offsetOutsideSpace
  deriving DecidableEq, Repr

/-- An engine's control part after reset (R40): SEED 0, LEN 0, IDLE. `len_q` and `off` are UNSPECIFIED there: 0 is the
model's choice (log 4), as are the model's own fields. -/
def Ctl.reset : Ctl :=
  { seed := 0, len := 0, lenQ := 0, off := 0, phase := .idle, disturbed := false, draws := 0 }

/-- The machine right after reset (R40), with the default `LEN_W = 32` (R7) and nothing placed in a message space. The
accumulators are UNSPECIFIED there: 0 is the model's choice (log 4). -/
def State.reset : State :=
  { lenW := 32
    h32 := { ctl := Ctl.reset, h1 := 0 }
    x86 := { ctl := Ctl.reset, h1 := 0, h2 := 0, h3 := 0, h4 := 0 }
    x64 := { ctl := Ctl.reset, h1 := 0, h2 := 0 }
    msgH32 := []
    msgX86 := []
    msgX64 := []
    answers := []
    inputs := []
    turns := 0 }

end Sys2Proof.Machine
end

