-- ==== Sys2Proof/Machine/Flags.lean ====
section
/-! DEFINITION. The status bits, which are views of the phase (spec/10_state.md R29, R33, R43). There are no condition codes. -/

namespace Sys2Proof.Machine

/-- `BUSY`: the phase is BLOCK, TAIL or FINAL (R29). -/
def busyBit : Phase → Bool
  | .idle => false
  | .block => true
  | .tail => true
  | .final => true
  | .done => false

/-- `DONE`: the phase is DONE (R29). -/
def doneBit : Phase → Bool
  | .idle => false
  | .block => false
  | .tail => false
  | .final => false
  | .done => true

/-- The word that STATUS reads as (R33): bit 0 BUSY, bit 1 DONE, bits 6 to 4 PHASE, all others 0. -/
def statusWord (p : Phase) : Word32 :=
  ((phaseCode p).setWidth 32 <<< 4) ||| ((BitVec.ofBool (doneBit p)).setWidth 32 <<< 1)
    ||| (BitVec.ofBool (busyBit p)).setWidth 32

end Sys2Proof.Machine
end

