-- ==== Sys2Proof/Machine/Primitives.lean ====
section
/-! DEFINITION. The combinational functions every engine uses (spec/40_primitives.md): rotates, finalizers, the k-mix. They read
and write no state (R130). All arithmetic wraps (R127), all shifts are logical and mathematical (R9, C2). -/

namespace Sys2Proof.Machine

/-- Left rotate of 32 bits, `r` in 0 .. 31 (R120, R122). -/
def rotl32 (x : Word32) (r : Nat) : Word32 :=
  (x <<< r) ||| (x >>> (32 - r))

/-- Left rotate of 64 bits, `r` in 0 .. 63 (R121, R122). -/
def rotl64 (x : Word64) (r : Nat) : Word64 :=
  (x <<< r) ||| (x >>> (64 - r))

/-- The avalanche of a 32-bit accumulator: five steps in sequence (R123). -/
def fmix32 (h : Word32) : Word32 :=
  let h := h ^^^ (h >>> 16)
  let h := h * 0x85EBCA6B
  let h := h ^^^ (h >>> 13)
  let h := h * 0xC2B2AE35
  h ^^^ (h >>> 16)

/-- The avalanche of a 64-bit accumulator: five steps in sequence (R124). -/
def fmix64 (h : Word64) : Word64 :=
  let h := h ^^^ (h >>> 33)
  let h := h * 0xFF51AFD7ED558CCD
  let h := h ^^^ (h >>> 33)
  let h := h * 0xC4CEB9FE1A85EC53
  h ^^^ (h >>> 33)

/-- The k-mix of a 32-bit word: multiply, rotate, multiply (R125). -/
def kmix32 (k a : Word32) (r : Nat) (b : Word32) : Word32 :=
  rotl32 (k * a) r * b

/-- The k-mix of a 64-bit word: multiply, rotate, multiply (R126). -/
def kmix64 (k a : Word64) (r : Nat) (b : Word64) : Word64 :=
  rotl64 (k * a) r * b

end Sys2Proof.Machine
end

