-- ==== Sys2Proof/Machine/Ops.lean ====
section
/-! DEFINITION. The named operations over message spaces, registers, draws and phases that every meaning is written with; the
reset event; the choice of the engine that moves. Taking an exception and returning from one have no operation here: the
hardware has neither (spec/60_exceptions.md R220, R225). -/

namespace Sys2Proof.Machine

/-! ### Message spaces -/

/-- What an offset that no entry lists reads as: the model's choice of the platform's content (log 8). -/
def unlistedByte : Byte := 0

/-- `msg(e)(off)` (R60): the byte of a message space at an offset. It never faults (R68). -/
def memRead : Memory → Nat → Byte
  | [], _ => unlistedByte
  | (k, b) :: m, a => if k = a then b else memRead m a

/-- Sets one byte and keeps the canonical form. Only the platform does this: no engine writes memory (R61). -/
def memWrite : Memory → Nat → Byte → Memory
  | [], a, b => if b = unlistedByte then [] else [(a, b)]
  | (k, c) :: m, a, b =>
    if a < k then (if b = unlistedByte then (k, c) :: m else (a, b) :: (k, c) :: m)
    else if a = k then (if b = unlistedByte then m else (k, b) :: m)
    else (k, c) :: memWrite m a b

/-- The canonical form above a least offset: offsets strictly rising, no entry equal to what an unlisted offset reads as. -/
def Memory.wfFrom : Nat → Memory → Bool
  | _, [] => true
  | lo, (k, b) :: m => decide (lo ≤ k) && decide (b ≠ unlistedByte) && Memory.wfFrom (k + 1) m

/-- The canonical form of a message space: equal message spaces are equal lists. -/
def Memory.wf (m : Memory) : Bool :=
  Memory.wfFrom 0 m

/-! ### Accessors by engine -/

/-- The control part of an engine. -/
def State.ctl (s : State) : Engine → Ctl
  | .h32 => s.h32.ctl
  | .x86 => s.x86.ctl
  | .x64 => s.x64.ctl

/-- Replaces the control part of an engine. -/
def State.setCtl (s : State) (e : Engine) (c : Ctl) : State :=
  match e with
  | .h32 => { s with h32 := { s.h32 with ctl := c } }
  | .x86 => { s with x86 := { s.x86 with ctl := c } }
  | .x64 => { s with x64 := { s.x64 with ctl := c } }

/-- The message space of an engine (R39). -/
def State.msg (s : State) : Engine → Memory
  | .h32 => s.msgH32
  | .x86 => s.msgX86
  | .x64 => s.msgX64

/-- Replaces the message space of an engine. -/
def State.setMsg (s : State) (e : Engine) (m : Memory) : State :=
  match e with
  | .h32 => { s with msgH32 := m }
  | .x86 => { s with msgX86 := m }
  | .x64 => { s with msgX64 := m }

/-- A host read returns a word (R206). -/
def State.answer (s : State) (v : Word32) : State :=
  { s with answers := v :: s.answers }

/-- The wire `e.done`, equal to the DONE bit at every moment (R43). -/
def State.doneWire (s : State) (e : Engine) : Bool :=
  doneBit (s.ctl e).phase

/-! ### Lengths of `LEN_W` bits -/

/-- The value whose bits `n-1 .. 0` are 1. -/
def lowMask (n : Nat) : Word64 :=
  BitVec.ofNat 64 (2 ^ n - 1)

/-- `v mod 2^n` (R9, `trunc_N`). -/
def truncTo (n : Nat) (v : Word64) : Word64 :=
  v &&& lowMask n

/-! ### The sequencer (R26, R27) -/

/-- `BS(e)`, the block size in bytes (R7). -/
def blockSize : Engine → Nat
  | .h32 => 4
  | .x86 => 16
  | .x64 => 16

/-- The phase of a run of which `rest` bytes are unread: BLOCK if a full block is left, else TAIL (R27). -/
def blockOrTail (e : Engine) (rest : Nat) : Phase :=
  if blockSize e ≤ rest then .block else .tail

/-- `len_q - off`, a subtraction of natural numbers (R26): the bytes not yet read. -/
def Ctl.rest (c : Ctl) : Nat :=
  c.lenQ.toNat - c.off.toNat

/-- The control part of INIT (R27, R140, R160, R180): LEN is latched, the offset cleared, the phase chosen. -/
def Ctl.start (c : Ctl) (e : Engine) : Ctl :=
  { c with lenQ := c.len, off := 0, phase := blockOrTail e c.len.toNat, disturbed := false }

/-- The control part of BLOCK (R27): the offset moves by `BS(e)`. It is a value of `LEN_W` bits, and does not wrap in a
state that a run reaches (R26; log 12). -/
def Ctl.afterBlock (c : Ctl) (e : Engine) (lenW : Nat) : Ctl :=
  let off := truncTo lenW (c.off + BitVec.ofNat 64 (blockSize e))
  { c with off := off, phase := blockOrTail e (c.lenQ.toNat - off.toNat) }

/-- The control part of TAIL (R27). -/
def Ctl.afterTail (c : Ctl) : Ctl :=
  { c with off := c.lenQ, phase := .final }

/-- The control part of FINAL (R27). -/
def Ctl.afterFinal (c : Ctl) : Ctl :=
  { c with phase := .done }

/-! ### Free values -/

/-- The free value of draw `n` of an engine, as 32 bits. -/
def free32 (e : Engine) (n : Nat) : Word32 :=
  (Config.free e n).setWidth 32

/-- Counts `k` more draws. -/
def Ctl.drew (c : Ctl) (k : Nat) : Ctl :=
  { c with draws := c.draws + k }

/-! ### Reset (R250, R251) -/

/-- An engine's control part after the reset event (R40): IDLE, SEED 0, LEN 0; `len_q` and `off` are UNSPECIFIED, so the
first two draws (log 5). -/
def Ctl.afterReset (c : Ctl) (e : Engine) (lenW : Nat) : Ctl :=
  { seed := 0
    len := 0
    lenQ := truncTo lenW (Config.free e c.draws)
    off := truncTo lenW (Config.free e (c.draws + 1))
    phase := .idle
    disturbed := false
    draws := c.draws + 6 }

/-- The reset event (R250): every engine takes the values of R40, the UNSPECIFIED accumulators being the next draws
(log 5). The message spaces are untouched (R251). -/
def resetEvent (s : State) : State :=
  { s with
    h32 :=
      { ctl := s.h32.ctl.afterReset .h32 s.lenW
        h1 := free32 .h32 (s.h32.ctl.draws + 2) }
    x86 :=
      { ctl := s.x86.ctl.afterReset .x86 s.lenW
        h1 := free32 .x86 (s.x86.ctl.draws + 2)
        h2 := free32 .x86 (s.x86.ctl.draws + 3)
        h3 := free32 .x86 (s.x86.ctl.draws + 4)
        h4 := free32 .x86 (s.x86.ctl.draws + 5) }
    x64 :=
      { ctl := s.x64.ctl.afterReset .x64 s.lenW
        h1 := Config.free .x64 (s.x64.ctl.draws + 2)
        h2 := Config.free .x64 (s.x64.ctl.draws + 3) } }

/-! ### The platform's changes of a message space (R70, R212, R254) -/

/-- Whether a change of the byte at `off` to `b` breaks the stable-message rule for the run in progress (R70): the engine is
busy, the byte lies below `len_q`, and it really changes. -/
def breaksStability (s : State) (e : Engine) (off : Word64) (b : Byte) : Bool :=
  busyBit (s.ctl e).phase && decide (off.toNat < (s.ctl e).lenQ.toNat)
    && decide (memRead (s.msg e) off.toNat ≠ b)

/-- The platform changes one message byte, and the run in progress is marked where that breaks its stability. -/
def setMessageByte (s : State) (e : Engine) (off : Word64) (b : Byte) : State :=
  let c := s.ctl e
  (s.setCtl e { c with disturbed := c.disturbed || breaksStability s e off b }).setMsg e
    (memWrite (s.msg e) off.toNat b)

/-! ### Which engine moves when the schedule in State has run out (R230, R263) -/

/-- The engines that have a step to take (R27). -/
def busyEngines (s : State) : List Engine :=
  [Engine.h32, .x86, .x64].filter fun e => busyBit (s.ctl e).phase

/-- The engine that moves: none where no engine is busy, the only busy one, or a free choice among several (log 10). -/
def nextEngine (s : State) : Option Engine :=
  match busyEngines s with
  | [] => none
  | [e] => some e
  | e :: es => some ((e :: es).getD (Config.choose s.turns % (es.length + 1)) e)

end Sys2Proof.Machine
end

