-- ==== Sys2Proof/Machine/Operands.lean ====
section
/-! DEFINITION. How each operand is obtained (spec/30_encoding.md R97): message bytes and little-endian message words
(spec/20_memory.md R60, R62, R64, R66), the parts of a length that the port shows (spec/10_state.md R31), the length that
FINAL takes. -/

namespace Sys2Proof.Machine

/-! ### Message operands -/

/-- One byte request (R60): the offset has `LEN_W` bits. -/
def msgByte (s : State) (e : Engine) (off : Nat) : Byte :=
  memRead (s.msg e) (off % 2 ^ s.lenW)

/-- The `n` message bytes from an offset on, lowest offset first. -/
def msgBytes (s : State) (e : Engine) (off : Nat) : Nat → List Byte
  | 0 => []
  | n + 1 => msgByte s e off :: msgBytes s e (off + 1) n

/-- The little-endian word of some bytes (R62): the first byte is the least significant, and a byte enters zero-extended
(R63). -/
def leWord (w : Nat) : List Byte → BitVec w
  | [] => 0
  | b :: bs => b.setWidth w ||| (leWord w bs <<< 8)

/-- `MemRead(e, off, n)`, zero-extended to `w` bits (R10, R62). -/
def memReadWord (w : Nat) (s : State) (e : Engine) (off n : Nat) : BitVec w :=
  leWord w (msgBytes s e off n)

/-- How many of `r` tail bytes fall in word `i` (from 0) of words of `n` bytes: `min(n, max(0, r - n*i))` (R162, R182). -/
def laneCount (n r i : Nat) : Nat :=
  min n (r - n * i)

/-- The word `i` (from 0) of a full block of words of `n` bytes (R161, R181). -/
def blockWord (w n : Nat) (s : State) (e : Engine) (i : Nat) : BitVec w :=
  memReadWord w s e ((s.ctl e).off.toNat + n * i) n

/-- The word `i` (from 0) of the tail, absent bytes 0 (R64, R142, R162, R182). -/
def tailWord (w n : Nat) (s : State) (e : Engine) (i : Nat) : BitVec w :=
  memReadWord w s e ((s.ctl e).off.toNat + n * i) (laneCount n (s.ctl e).rest i)

/-! ### The two port registers of a length (R31, R203, R207) -/

/-- `LEN` after a write of LEN: bits `m-1 .. 0` are replaced, `m = min(LEN_W, 32)` (R203). -/
def lenWithLow (lenW : Nat) (len : Word64) (d : Word32) : Word64 :=
  (len &&& ~~~lowMask (min lenW 32)) ||| truncTo (min lenW 32) (d.setWidth 64)

/-- `LEN` after a write of LEN_HI: if `LEN_W > 32`, bits `LEN_W-1 .. 32` are replaced; else nothing (R203). -/
def lenWithHigh (lenW : Nat) (len : Word64) (d : Word32) : Word64 :=
  if 32 < lenW then truncTo 32 len ||| truncTo lenW (d.setWidth 64 <<< 32) else len

/-- What LEN reads as (R207). -/
def lenLow (lenW : Nat) (len : Word64) : Word32 :=
  (truncTo (min lenW 32) len).setWidth 32

/-- What LEN_HI reads as (R207). -/
def lenHigh (lenW : Nat) (len : Word64) : Word32 :=
  if 32 < lenW then (truncTo lenW len >>> 32).setWidth 32 else 0

/-- The length that FINAL of a 32-bit engine xors in: `trunc_32(len_q)` (R143, R163, D5). -/
def finalLen32 (c : Ctl) : Word32 :=
  c.lenQ.setWidth 32

end Sys2Proof.Machine
end

