-- ==== Sys2Proof/Machine/H32.lean ====
section
/-! DEFINITION. The engine H32 (spec/41_hash32.md): START, BLOCK, TAIL, FINAL. -/

namespace Sys2Proof.Machine

/-- `h1 ^ kmix32(k1, c1, 15, c2)` with the constants of R145: the whole of TAIL's arithmetic, the first step of BLOCK's. -/
def h32Absorb (h k : Word32) : Word32 :=
  h ^^^ kmix32 k 0xCC9E2D51 15 0x1B873593

/-- The arithmetic of one block (R141). -/
def h32Round (h k : Word32) : Word32 :=
  rotl32 (h32Absorb h k) 13 * 5 + 0xE6546B64

/-- The arithmetic of FINAL (R143): length xor and avalanche. -/
def h32Finish (h n : Word32) : Word32 :=
  fmix32 (h ^^^ n)

/-- `H32.START` (R140, R200): accepted in IDLE and DONE, where it performs INIT; ignored while the engine is busy (R201).
A data word with bit 0 clear is no START and does nothing (R210). -/
def execH32Start (data : Word32) (s : State) : Host.Outcome State Fault Refusal :=
  if data.getLsbD 0 && !busyBit s.h32.ctl.phase then
    .next { s with h32 := { ctl := s.h32.ctl.start .h32, h1 := s.h32.ctl.seed } }
  else .next s

/-- `H32.BLOCK` (R141): one full 4-byte block. -/
def execH32Block (s : State) : Host.Outcome State Fault Refusal :=
  .next
    { s with
      h32 :=
        { ctl := s.h32.ctl.afterBlock .h32 s.lenW
          h1 := h32Round s.h32.h1 (blockWord 32 4 s .h32 0) } }

/-- `H32.TAIL` (R142): the 0 to 3 bytes after the last full block; the accumulator changes only where a byte is present. -/
def execH32Tail (s : State) : Host.Outcome State Fault Refusal :=
  .next
    { s with
      h32 :=
        { ctl := s.h32.ctl.afterTail
          h1 :=
            if laneCount 4 s.h32.ctl.rest 0 = 0 then s.h32.h1
            else h32Absorb s.h32.h1 (tailWord 32 4 s .h32 0) } }

/-- `H32.FINAL` (R143). The digest of a run whose message changed is UNSPECIFIED, and the engine still reaches DONE (R70):
there the accumulator takes a free value (log 9). -/
def execH32Final (s : State) : Host.Outcome State Fault Refusal :=
  let c := s.h32.ctl
  if c.disturbed then
    .next { s with h32 := { ctl := c.afterFinal.drew 1, h1 := free32 .h32 c.draws } }
  else .next { s with h32 := { ctl := c.afterFinal, h1 := h32Finish s.h32.h1 (finalLen32 c) } }

end Sys2Proof.Machine
end

