-- ==== Sys2Proof/Machine/X64.lean ====
section
/-! DEFINITION. The engine X64 (spec/43_hash128_x64.md): START, BLOCK, TAIL, FINAL, all on 64-bit values. -/

namespace Sys2Proof.Machine

/-- The two accumulators as one local value of a step; the digest is this ordered tuple (R23). -/
structure Acc2 where
  h1 : Word64
  h2 : Word64
  deriving DecidableEq, Repr

/-- Lane 1's `h1 ^ kmix64(k1, c1, 31, c2)` (R185). -/
def x64Absorb1 (h k : Word64) : Word64 :=
  h ^^^ kmix64 k 0x87C37B91114253D5 31 0x4CF5AD432745937F

/-- Lane 2's `h2 ^ kmix64(k2, c2, 33, c1)` (R185). -/
def x64Absorb2 (h k : Word64) : Word64 :=
  h ^^^ kmix64 k 0x4CF5AD432745937F 33 0x87C37B91114253D5

/-- The arithmetic of one block: lane 1 adds the old `h2`, lane 2 the new `h1`; the additive constants have zero upper
halves (R181, R128). -/
def x64Round (a : Acc2) (k1 k2 : Word64) : Acc2 :=
  let h1 := (rotl64 (x64Absorb1 a.h1 k1) 27 + a.h2) * 5 + 0x52DCE729
  let h2 := (rotl64 (x64Absorb2 a.h2 k2) 31 + h1) * 5 + 0x38495AB5
  { h1, h2 }

/-- The cross-add of FINAL: `h1` adds `h2`, then `h2` adds the new `h1` (R183). -/
def x64CrossAdd (a : Acc2) : Acc2 :=
  let h1 := a.h1 + a.h2
  { h1, h2 := a.h2 + h1 }

/-- The arithmetic of FINAL (R183): length xor, cross-add, two avalanches, cross-add. -/
def x64Finish (a : Acc2) (n : Word64) : Acc2 :=
  let b := x64CrossAdd { h1 := a.h1 ^^^ n, h2 := a.h2 ^^^ n }
  x64CrossAdd { h1 := fmix64 b.h1, h2 := fmix64 b.h2 }

/-- The accumulators of X64 as one value. -/
def X64.acc (x : X64) : Acc2 :=
  { h1 := x.h1, h2 := x.h2 }

/-- X64 with a control part and accumulators. -/
def x64Of (c : Ctl) (a : Acc2) : X64 :=
  { ctl := c, h1 := a.h1, h2 := a.h2 }

/-- The arithmetic of TAIL (R182) for `r` tail bytes: each word that received a byte is absorbed, and nothing else. -/
def x64TailMix (a : Acc2) (r : Nat) (k1 k2 : Word64) : Acc2 :=
  { h1 := if laneCount 8 r 0 = 0 then a.h1 else x64Absorb1 a.h1 k1
    h2 := if laneCount 8 r 1 = 0 then a.h2 else x64Absorb2 a.h2 k2 }

/-- `X64.START` (R180, R200): accepted in IDLE and DONE, where it performs INIT with the seed zero-extended to 64 bits
(D16); ignored while the engine is busy (R201). A data word with bit 0 clear is no START and does nothing (R210). -/
def execX64Start (data : Word32) (s : State) : Host.Outcome State Fault Refusal :=
  let c := s.x64.ctl
  if data.getLsbD 0 && !busyBit c.phase then
    .next { s with x64 := { ctl := c.start .x64, h1 := c.seed.setWidth 64, h2 := c.seed.setWidth 64 } }
  else .next s

/-- `X64.BLOCK` (R181): one full 16-byte block of two little-endian 64-bit words. -/
def execX64Block (s : State) : Host.Outcome State Fault Refusal :=
  .next
    { s with
      x64 :=
        x64Of (s.x64.ctl.afterBlock .x64 s.lenW)
          (x64Round s.x64.acc (blockWord 64 8 s .x64 0) (blockWord 64 8 s .x64 1)) }

/-- `X64.TAIL` (R182): the 0 to 15 bytes after the last full block. -/
def execX64Tail (s : State) : Host.Outcome State Fault Refusal :=
  .next
    { s with
      x64 :=
        x64Of s.x64.ctl.afterTail
          (x64TailMix s.x64.acc s.x64.ctl.rest (tailWord 64 8 s .x64 0) (tailWord 64 8 s .x64 1)) }

/-- `X64.FINAL` (R183): the length enters zero-extended (D5). The digest of a run whose message changed is UNSPECIFIED, and
the engine still reaches DONE (R70): there the accumulators take free values (log 9). -/
def execX64Final (s : State) : Host.Outcome State Fault Refusal :=
  let c := s.x64.ctl
  if c.disturbed then
    .next
      { s with
        x64 :=
          { ctl := c.afterFinal.drew 2
            h1 := Config.free .x64 c.draws
            h2 := Config.free .x64 (c.draws + 1) } }
  else .next { s with x64 := x64Of c.afterFinal (x64Finish s.x64.acc c.lenQ) }

end Sys2Proof.Machine
end

