-- ==== Sys2Proof/Machine/X86.lean ====
section
/-! DEFINITION. The engine X86 (spec/42_hash128_x86.md): START, BLOCK, TAIL, FINAL. The four lanes are scalar code in sequence
(R166, R168). -/

namespace Sys2Proof.Machine

/-- The four accumulators as one local value of a step; the digest is this ordered tuple (R22). -/
structure Acc4 where
  h1 : Word32
  h2 : Word32
  h3 : Word32
  h4 : Word32
  deriving DecidableEq, Repr

/-- Lane 1's `h1 ^ kmix32(k1, c1, 15, c2)` (R165). -/
def x86Absorb1 (h k : Word32) : Word32 :=
  h ^^^ kmix32 k 0x239B961B 15 0xAB0E9789

/-- Lane 2's `h2 ^ kmix32(k2, c2, 16, c3)` (R165). -/
def x86Absorb2 (h k : Word32) : Word32 :=
  h ^^^ kmix32 k 0xAB0E9789 16 0x38B34AE5

/-- Lane 3's `h3 ^ kmix32(k3, c3, 17, c4)` (R165). -/
def x86Absorb3 (h k : Word32) : Word32 :=
  h ^^^ kmix32 k 0x38B34AE5 17 0xA1E38B93

/-- Lane 4's `h4 ^ kmix32(k4, c4, 18, c1)` (R165). -/
def x86Absorb4 (h k : Word32) : Word32 :=
  h ^^^ kmix32 k 0xA1E38B93 18 0x239B961B

/-- The arithmetic of one block: lanes 1 to 4 in this order, each reading the accumulators as the lanes before it left them,
so lane 4 adds the new `h1` (R161, R166). -/
def x86Round (a : Acc4) (k1 k2 k3 k4 : Word32) : Acc4 :=
  let h1 := (rotl32 (x86Absorb1 a.h1 k1) 19 + a.h2) * 5 + 0x561CCD1B
  let h2 := (rotl32 (x86Absorb2 a.h2 k2) 17 + a.h3) * 5 + 0x0BCAA747
  let h3 := (rotl32 (x86Absorb3 a.h3 k3) 15 + a.h4) * 5 + 0x96CD1C35
  let h4 := (rotl32 (x86Absorb4 a.h4 k4) 13 + h1) * 5 + 0x32AC3B17
  { h1, h2, h3, h4 }

/-- The cross-add of FINAL: `h1` becomes the sum of all four, then each other adds that new `h1` (R163). -/
def x86CrossAdd (a : Acc4) : Acc4 :=
  let h1 := a.h1 + a.h2 + a.h3 + a.h4
  { h1, h2 := a.h2 + h1, h3 := a.h3 + h1, h4 := a.h4 + h1 }

/-- The arithmetic of FINAL (R163): length xor, cross-add, four avalanches, cross-add. -/
def x86Finish (a : Acc4) (n : Word32) : Acc4 :=
  let b := x86CrossAdd { h1 := a.h1 ^^^ n, h2 := a.h2 ^^^ n, h3 := a.h3 ^^^ n, h4 := a.h4 ^^^ n }
  x86CrossAdd { h1 := fmix32 b.h1, h2 := fmix32 b.h2, h3 := fmix32 b.h3, h4 := fmix32 b.h4 }

/-- The accumulators of X86 as one value. -/
def X86.acc (x : X86) : Acc4 :=
  { h1 := x.h1, h2 := x.h2, h3 := x.h3, h4 := x.h4 }

/-- X86 with a control part and accumulators. -/
def x86Of (c : Ctl) (a : Acc4) : X86 :=
  { ctl := c, h1 := a.h1, h2 := a.h2, h3 := a.h3, h4 := a.h4 }

/-- The arithmetic of TAIL (R162) for `r` tail bytes: each lane that received a byte absorbs its word, and nothing else. -/
def x86TailMix (a : Acc4) (r : Nat) (k1 k2 k3 k4 : Word32) : Acc4 :=
  { h1 := if laneCount 4 r 0 = 0 then a.h1 else x86Absorb1 a.h1 k1
    h2 := if laneCount 4 r 1 = 0 then a.h2 else x86Absorb2 a.h2 k2
    h3 := if laneCount 4 r 2 = 0 then a.h3 else x86Absorb3 a.h3 k3
    h4 := if laneCount 4 r 3 = 0 then a.h4 else x86Absorb4 a.h4 k4 }

/-- `X86.START` (R160, R200): accepted in IDLE and DONE, where it performs INIT; ignored while the engine is busy (R201).
A data word with bit 0 clear is no START and does nothing (R210). -/
def execX86Start (data : Word32) (s : State) : Host.Outcome State Fault Refusal :=
  let c := s.x86.ctl
  if data.getLsbD 0 && !busyBit c.phase then
    .next { s with x86 := { ctl := c.start .x86, h1 := c.seed, h2 := c.seed, h3 := c.seed, h4 := c.seed } }
  else .next s

/-- `X86.BLOCK` (R161): one full 16-byte block of four little-endian words. -/
def execX86Block (s : State) : Host.Outcome State Fault Refusal :=
  .next
    { s with
      x86 :=
        x86Of (s.x86.ctl.afterBlock .x86 s.lenW)
          (x86Round s.x86.acc (blockWord 32 4 s .x86 0) (blockWord 32 4 s .x86 1) (blockWord 32 4 s .x86 2)
            (blockWord 32 4 s .x86 3)) }

/-- `X86.TAIL` (R162): the 0 to 15 bytes after the last full block. -/
def execX86Tail (s : State) : Host.Outcome State Fault Refusal :=
  .next
    { s with
      x86 :=
        x86Of s.x86.ctl.afterTail
          (x86TailMix s.x86.acc s.x86.ctl.rest (tailWord 32 4 s .x86 0) (tailWord 32 4 s .x86 1)
            (tailWord 32 4 s .x86 2) (tailWord 32 4 s .x86 3)) }

/-- `X86.FINAL` (R163). The digest of a run whose message changed is UNSPECIFIED, and the engine still reaches DONE (R70):
there the accumulators take free values (log 9). -/
def execX86Final (s : State) : Host.Outcome State Fault Refusal :=
  let c := s.x86.ctl
  if c.disturbed then
    .next
      { s with
        x86 :=
          { ctl := c.afterFinal.drew 4
            h1 := free32 .x86 c.draws
            h2 := free32 .x86 (c.draws + 1)
            h3 := free32 .x86 (c.draws + 2)
            h4 := free32 .x86 (c.draws + 3) } }
  else .next { s with x86 := x86Of c.afterFinal (x86Finish s.x86.acc (finalLen32 c)) }

end Sys2Proof.Machine
end

