-- ==== Sys2Proof/Machine/HostPort.lean ====
section
/-! DEFINITION. The host's register writes and reads (spec/44_host_interface.md R202 to R207) for each engine. -/

namespace Sys2Proof.Machine

/-! ### The shared operations -/

/-- A write of SEED (R202): in every phase, and without effect on the run in progress. -/
def writeSeed (e : Engine) (d : Word32) (s : State) : State :=
  s.setCtl e { s.ctl e with seed := d }

/-- A write of LEN (R203). -/
def writeLen (e : Engine) (d : Word32) (s : State) : State :=
  s.setCtl e { s.ctl e with len := lenWithLow s.lenW (s.ctl e).len d }

/-- A write of LEN_HI (R203). -/
def writeLenHi (e : Engine) (d : Word32) (s : State) : State :=
  s.setCtl e { s.ctl e with len := lenWithHigh s.lenW (s.ctl e).len d }

/-- A read of STATUS (R204): it changes no state of the engine. -/
def readStatus (e : Engine) (s : State) : State :=
  s.answer (statusWord (s.ctl e).phase)

/-- A read of SEED (R207). -/
def readSeed (e : Engine) (s : State) : State :=
  s.answer (s.ctl e).seed

/-- A read of LEN (R207). -/
def readLen (e : Engine) (s : State) : State :=
  s.answer (lenLow s.lenW (s.ctl e).len)

/-- A read of LEN_HI (R207). -/
def readLenHi (e : Engine) (s : State) : State :=
  s.answer (lenHigh s.lenW (s.ctl e).len)

/-- A read of a DIGEST word (R205): in DONE it returns the word and changes no state; in every other phase it returns an
UNSPECIFIED value, a fresh free value for each read (U1, log 6). -/
def readDigest (e : Engine) (word : Word32) (s : State) : State :=
  let c := s.ctl e
  if c.phase = .done then s.answer word
  else (s.setCtl e (c.drew 1)).answer (free32 e c.draws)

/-- The low half of a 64-bit accumulator, at the lower offset (R36). -/
def lowHalf (h : Word64) : Word32 :=
  h.extractLsb' 0 32

/-- The high half of a 64-bit accumulator, at the higher offset (R36). -/
def highHalf (h : Word64) : Word32 :=
  h.extractLsb' 32 32

/-! ### H32: register writes -/

/-- `H32.WR_SEED` (R202). -/
def execH32WrSeed (data : Word32) (s : State) : Host.Outcome State Fault Refusal :=
  .next (writeSeed .h32 data s)

/-- `H32.WR_LEN` (R203). -/
def execH32WrLen (data : Word32) (s : State) : Host.Outcome State Fault Refusal :=
  .next (writeLen .h32 data s)

/-- `H32.WR_LEN_HI` (R203). -/
def execH32WrLenHi (data : Word32) (s : State) : Host.Outcome State Fault Refusal :=
  .next (writeLenHi .h32 data s)

/-! ### X86: register writes -/

/-- `X86.WR_SEED` (R202). -/
def execX86WrSeed (data : Word32) (s : State) : Host.Outcome State Fault Refusal :=
  .next (writeSeed .x86 data s)

/-- `X86.WR_LEN` (R203). -/
def execX86WrLen (data : Word32) (s : State) : Host.Outcome State Fault Refusal :=
  .next (writeLen .x86 data s)

/-- `X86.WR_LEN_HI` (R203). -/
def execX86WrLenHi (data : Word32) (s : State) : Host.Outcome State Fault Refusal :=
  .next (writeLenHi .x86 data s)

/-! ### X64: register writes -/

/-- `X64.WR_SEED` (R202). -/
def execX64WrSeed (data : Word32) (s : State) : Host.Outcome State Fault Refusal :=
  .next (writeSeed .x64 data s)

/-- `X64.WR_LEN` (R203). -/
def execX64WrLen (data : Word32) (s : State) : Host.Outcome State Fault Refusal :=
  .next (writeLen .x64 data s)

/-- `X64.WR_LEN_HI` (R203). -/
def execX64WrLenHi (data : Word32) (s : State) : Host.Outcome State Fault Refusal :=
  .next (writeLenHi .x64 data s)

/-! ### H32: register reads -/

/-- `H32.RD_STATUS` (R204, R33). -/
def execH32RdStatus (s : State) : Host.Outcome State Fault Refusal :=
  .next (readStatus .h32 s)

/-- `H32.RD_SEED` (R207). -/
def execH32RdSeed (s : State) : Host.Outcome State Fault Refusal :=
  .next (readSeed .h32 s)

/-- `H32.RD_LEN` (R207). -/
def execH32RdLen (s : State) : Host.Outcome State Fault Refusal :=
  .next (readLen .h32 s)

/-- `H32.RD_LEN_HI` (R207). -/
def execH32RdLenHi (s : State) : Host.Outcome State Fault Refusal :=
  .next (readLenHi .h32 s)

/-- `H32.RD_DIGEST0` (R205, R34). -/
def execH32RdDigest0 (s : State) : Host.Outcome State Fault Refusal :=
  .next (readDigest .h32 s.h32.h1 s)

/-! ### X86: register reads -/

/-- `X86.RD_STATUS` (R204, R33). -/
def execX86RdStatus (s : State) : Host.Outcome State Fault Refusal :=
  .next (readStatus .x86 s)

/-- `X86.RD_SEED` (R207). -/
def execX86RdSeed (s : State) : Host.Outcome State Fault Refusal :=
  .next (readSeed .x86 s)

/-- `X86.RD_LEN` (R207). -/
def execX86RdLen (s : State) : Host.Outcome State Fault Refusal :=
  .next (readLen .x86 s)

/-- `X86.RD_LEN_HI` (R207). -/
def execX86RdLenHi (s : State) : Host.Outcome State Fault Refusal :=
  .next (readLenHi .x86 s)

/-- `X86.RD_DIGEST0` (R205, R35). -/
def execX86RdDigest0 (s : State) : Host.Outcome State Fault Refusal :=
  .next (readDigest .x86 s.x86.h1 s)

/-- `X86.RD_DIGEST1` (R205, R35). -/
def execX86RdDigest1 (s : State) : Host.Outcome State Fault Refusal :=
  .next (readDigest .x86 s.x86.h2 s)

/-- `X86.RD_DIGEST2` (R205, R35). -/
def execX86RdDigest2 (s : State) : Host.Outcome State Fault Refusal :=
  .next (readDigest .x86 s.x86.h3 s)

/-- `X86.RD_DIGEST3` (R205, R35). -/
def execX86RdDigest3 (s : State) : Host.Outcome State Fault Refusal :=
  .next (readDigest .x86 s.x86.h4 s)

/-! ### X64: register reads -/

/-- `X64.RD_STATUS` (R204, R33). -/
def execX64RdStatus (s : State) : Host.Outcome State Fault Refusal :=
  .next (readStatus .x64 s)

/-- `X64.RD_SEED` (R207). -/
def execX64RdSeed (s : State) : Host.Outcome State Fault Refusal :=
  .next (readSeed .x64 s)

/-- `X64.RD_LEN` (R207). -/
def execX64RdLen (s : State) : Host.Outcome State Fault Refusal :=
  .next (readLen .x64 s)

/-- `X64.RD_LEN_HI` (R207). -/
def execX64RdLenHi (s : State) : Host.Outcome State Fault Refusal :=
  .next (readLenHi .x64 s)

/-- `X64.RD_DIGEST0` (R205, R36). -/
def execX64RdDigest0 (s : State) : Host.Outcome State Fault Refusal :=
  .next (readDigest .x64 (lowHalf s.x64.h1) s)

/-- `X64.RD_DIGEST1` (R205, R36). -/
def execX64RdDigest1 (s : State) : Host.Outcome State Fault Refusal :=
  .next (readDigest .x64 (highHalf s.x64.h1) s)

/-- `X64.RD_DIGEST2` (R205, R36). -/
def execX64RdDigest2 (s : State) : Host.Outcome State Fault Refusal :=
  .next (readDigest .x64 (lowHalf s.x64.h2) s)

/-- `X64.RD_DIGEST3` (R205, R36). -/
def execX64RdDigest3 (s : State) : Host.Outcome State Fault Refusal :=
  .next (readDigest .x64 (highHalf s.x64.h2) s)

end Sys2Proof.Machine
end

