-- ==== Sys2Proof/Machine/Dispatch.lean ====
section
/-! DEFINITION. One arm per instruction, each one direct call of its meaning. -/

namespace Sys2Proof.Machine

def exec (i : Instr) (s : State) : Host.Outcome State Fault Refusal :=
  match i with
  | .h32Start data => Sys2Proof.Machine.execH32Start data s
  | .h32WrSeed data => Sys2Proof.Machine.execH32WrSeed data s
  | .h32WrLen data => Sys2Proof.Machine.execH32WrLen data s
  | .h32WrLenHi data => Sys2Proof.Machine.execH32WrLenHi data s
  | .x86Start data => Sys2Proof.Machine.execX86Start data s
  | .x86WrSeed data => Sys2Proof.Machine.execX86WrSeed data s
  | .x86WrLen data => Sys2Proof.Machine.execX86WrLen data s
  | .x86WrLenHi data => Sys2Proof.Machine.execX86WrLenHi data s
  | .x64Start data => Sys2Proof.Machine.execX64Start data s
  | .x64WrSeed data => Sys2Proof.Machine.execX64WrSeed data s
  | .x64WrLen data => Sys2Proof.Machine.execX64WrLen data s
  | .x64WrLenHi data => Sys2Proof.Machine.execX64WrLenHi data s
  | .h32RdStatus => Sys2Proof.Machine.execH32RdStatus s
  | .h32RdSeed => Sys2Proof.Machine.execH32RdSeed s
  | .h32RdLen => Sys2Proof.Machine.execH32RdLen s
  | .h32RdLenHi => Sys2Proof.Machine.execH32RdLenHi s
  | .h32RdDigest0 => Sys2Proof.Machine.execH32RdDigest0 s
  | .x86RdStatus => Sys2Proof.Machine.execX86RdStatus s
  | .x86RdSeed => Sys2Proof.Machine.execX86RdSeed s
  | .x86RdLen => Sys2Proof.Machine.execX86RdLen s
  | .x86RdLenHi => Sys2Proof.Machine.execX86RdLenHi s
  | .x86RdDigest0 => Sys2Proof.Machine.execX86RdDigest0 s
  | .x86RdDigest1 => Sys2Proof.Machine.execX86RdDigest1 s
  | .x86RdDigest2 => Sys2Proof.Machine.execX86RdDigest2 s
  | .x86RdDigest3 => Sys2Proof.Machine.execX86RdDigest3 s
  | .x64RdStatus => Sys2Proof.Machine.execX64RdStatus s
  | .x64RdSeed => Sys2Proof.Machine.execX64RdSeed s
  | .x64RdLen => Sys2Proof.Machine.execX64RdLen s
  | .x64RdLenHi => Sys2Proof.Machine.execX64RdLenHi s
  | .x64RdDigest0 => Sys2Proof.Machine.execX64RdDigest0 s
  | .x64RdDigest1 => Sys2Proof.Machine.execX64RdDigest1 s
  | .x64RdDigest2 => Sys2Proof.Machine.execX64RdDigest2 s
  | .x64RdDigest3 => Sys2Proof.Machine.execX64RdDigest3 s
  | .h32Block => Sys2Proof.Machine.execH32Block s
  | .h32Tail => Sys2Proof.Machine.execH32Tail s
  | .h32Final => Sys2Proof.Machine.execH32Final s
  | .x86Block => Sys2Proof.Machine.execX86Block s
  | .x86Tail => Sys2Proof.Machine.execX86Tail s
  | .x86Final => Sys2Proof.Machine.execX86Final s
  | .x64Block => Sys2Proof.Machine.execX64Block s
  | .x64Tail => Sys2Proof.Machine.execX64Tail s
  | .x64Final => Sys2Proof.Machine.execX64Final s

end Sys2Proof.Machine
end

