-- ==== Sys2Proof/Machine/Step.lean ====
section
/-! DEFINITION. The step (R12): one event of the schedule, or one operation of a busy engine; and where an instruction is
placed so that the next step runs it. -/

namespace Sys2Proof.Machine

/-- What a decoded request does (R98): its instruction's meaning, or the effect of the class it falls under. -/
def runDecoded (d : Decoded) (s : State) : Host.Outcome State Fault Refusal :=
  match d with
  | .instr i => exec i s
  | .ignoredWrite => .next s
  | .zeroRead => .next (s.answer 0)
  | .noStep => .next s
  | .unnamedSelector => .refused .unnamedSelector
  | .misaligned => .refused .misalignedAccess

/-- Engine `e` takes the step that its phase selects (R27, R94); in IDLE and DONE it has none. -/
def runEngine (e : Engine) (s : State) : Host.Outcome State Fault Refusal :=
  runDecoded (decode (.select (selector e (s.ctl e).phase))) s

/-- One event. -/
def runInput (i : Input) (s : State) : Host.Outcome State Fault Refusal :=
  match i with
  | .hostWrite T => runDecoded (decode (.write T)) s
  | .hostRead A => runDecoded (decode (.read A)) s
  | .engineTurn e => runEngine e s
  | .reset => .next (resetEvent s)
  | .messageByte e off b =>
    if off.toNat < 2 ^ s.lenW then .next (setMessageByte s e off b) else .refused .offsetOutsideSpace

/-- One step: the oldest event of the schedule; where none is left, one operation of a busy engine (R263); where no engine
is busy either, nothing moves and nothing changes (R232). -/
def step (s : State) : Host.Outcome State Fault Refusal :=
  match s.inputs with
  | i :: rest => runInput i { s with inputs := rest }
  | [] =>
    match nextEngine s with
    | some e => runEngine e { s with turns := s.turns + 1 }
    | none => .next s

/-- The engine and phase of a selector that names a step (R94). -/
def selected (S : BitVec 5) : Option (Engine × Phase) :=
  match (S.extractLsb' 3 2).toNat, (S.extractLsb' 0 3).toNat with
  | 0, 1 => some (.h32, .block)
  | 0, 2 => some (.h32, .tail)
  | 0, 3 => some (.h32, .final)
  | 1, 1 => some (.x86, .block)
  | 1, 2 => some (.x86, .tail)
  | 1, 3 => some (.x86, .final)
  | 2, 1 => some (.x64, .block)
  | 2, 2 => some (.x64, .tail)
  | 2, 3 => some (.x64, .final)
  | _, _ => none

/-- Puts an event at the head of the schedule, so that it is the next step. -/
def State.issue (s : State) (i : Input) : State :=
  { s with inputs := i :: s.inputs }

/-- Places a request so that the next step runs it. There is no instruction memory (R90): a host transaction is issued on
the port; a sequencer operation is what its engine does in the phase that selects it, so the phase is set and the engine is
given the next turn. Log 1. -/
def State.place (s : State) (r : Request) : State :=
  match r with
  | .write T => s.issue (.hostWrite T)
  | .read A => s.issue (.hostRead A)
  | .select S =>
    match selected S with
    | some (e, p) => (s.setCtl e { s.ctl e with phase := p }).issue (.engineTurn e)
    | none => s

/-- `s` with a word of the opcode table placed as the next thing that happens. -/
def State.withFetchWord (s : State) (nbits w : Nat) : State :=
  match tableRequest nbits w with
  | some r => s.place r
  | none => s

end Sys2Proof.Machine
end

