-- ==== Sys2Proof/Machine/Functions.lean ====
section
/-! DEFINITION. The functions that whole runs compute, on byte lists (spec/41 R147, spec/42 R167, spec/43 R187): what the
engines' digests are compared with. No meaning calls them. -/

namespace Sys2Proof.Machine

/-- The word `i` (from 0) of words of `n` bytes in a byte list; absent bytes are 0 (R64). -/
def wordAt (w n : Nat) (bytes : List Byte) (i : Nat) : BitVec w :=
  leWord w ((bytes.drop (n * i)).take n)

/-- The block loop of `hash32` over `n` blocks (R147). -/
def hash32Blocks : Nat → List Byte → Word32 → Word32
  | 0, _, h => h
  | n + 1, bytes, h => hash32Blocks n (bytes.drop 4) (h32Round h (wordAt 32 4 bytes 0))

/-- `hash32(bytes, seed)` (R147). -/
def hash32 (bytes : List Byte) (seed : Word32) : Word32 :=
  let n := bytes.length / 4
  let h := hash32Blocks n bytes seed
  let h := h32Absorb h (wordAt 32 4 (bytes.drop (4 * n)) 0)
  h32Finish h (BitVec.ofNat 32 bytes.length)

/-- The block loop of `hash128_x86` over `n` blocks (R167). -/
def hash128x86Blocks : Nat → List Byte → Acc4 → Acc4
  | 0, _, a => a
  | n + 1, bytes, a =>
    hash128x86Blocks n (bytes.drop 16)
      (x86Round a (wordAt 32 4 bytes 0) (wordAt 32 4 bytes 1) (wordAt 32 4 bytes 2) (wordAt 32 4 bytes 3))

/-- `hash128_x86(bytes, seed)` (R167). -/
def hash128x86 (bytes : List Byte) (seed : Word32) : Acc4 :=
  let n := bytes.length / 16
  let a := hash128x86Blocks n bytes { h1 := seed, h2 := seed, h3 := seed, h4 := seed }
  let t := bytes.drop (16 * n)
  let a := x86TailMix a t.length (wordAt 32 4 t 0) (wordAt 32 4 t 1) (wordAt 32 4 t 2) (wordAt 32 4 t 3)
  x86Finish a (BitVec.ofNat 32 bytes.length)

/-- The block loop of `hash128_x64` over `n` blocks (R187). -/
def hash128x64Blocks : Nat → List Byte → Acc2 → Acc2
  | 0, _, a => a
  | n + 1, bytes, a => hash128x64Blocks n (bytes.drop 16) (x64Round a (wordAt 64 8 bytes 0) (wordAt 64 8 bytes 1))

/-- `hash128_x64(bytes, seed)` (R187). -/
def hash128x64 (bytes : List Byte) (seed : Word32) : Acc2 :=
  let n := bytes.length / 16
  let a := hash128x64Blocks n bytes { h1 := seed.setWidth 64, h2 := seed.setWidth 64 }
  let t := bytes.drop (16 * n)
  let a := x64TailMix a t.length (wordAt 64 8 t 0) (wordAt 64 8 t 1)
  x64Finish a (BitVec.ofNat 64 bytes.length)

end Sys2Proof.Machine
end

