-- ==== Sys2Proof/Safety.lean ====
section
/-! DEFINITION. The terms in which claims speak: the invariant of the sequencers and message spaces, the events the platform may
bring, which events concern which engine. -/

namespace Sys2Proof.Machine

/-! ### The invariant -/

/-- The three lengths of an engine have `LEN_W` bits (R20). -/
abbrev Ctl.Fits (lenW : Nat) (c : Ctl) : Prop :=
  c.len.toNat < 2 ^ lenW ∧ c.lenQ.toNat < 2 ^ lenW ∧ c.off.toNat < 2 ^ lenW

/-- The invariants of R28 for an engine of block size `bs`: in BLOCK the offset is a multiple of the block size and a full
block is left; in TAIL it stands at the last multiple; in FINAL and DONE everything is read. -/
abbrev Ctl.Sequenced (bs : Nat) (c : Ctl) : Prop :=
  (c.phase = .block → c.off.toNat % bs = 0 ∧ c.off.toNat + bs ≤ c.lenQ.toNat)
    ∧ (c.phase = .tail → c.off.toNat = bs * (c.lenQ.toNat / bs))
    ∧ (c.phase = .final → c.off = c.lenQ)
    ∧ (c.phase = .done → c.off = c.lenQ)

/-- A message space is canonical and lists offsets of `LEN_W` bits only (R39, R69). -/
abbrev Memory.InSpace (lenW : Nat) (m : Memory) : Prop :=
  m.wf = true ∧ ∀ cell ∈ m, cell.1 < 2 ^ lenW

/-- `LEN_W` is legal (R7), and every engine's lengths fit and its sequencer stands where R28 says. -/
abbrev State.SequencersOk (s : State) : Prop :=
  (1 ≤ s.lenW ∧ s.lenW ≤ 64)
    ∧ (s.h32.ctl.Fits s.lenW ∧ s.h32.ctl.Sequenced 4)
    ∧ (s.x86.ctl.Fits s.lenW ∧ s.x86.ctl.Sequenced 16)
    ∧ (s.x64.ctl.Fits s.lenW ∧ s.x64.ctl.Sequenced 16)

/-- Every message space is canonical and within its space. -/
abbrev State.MessagesOk (s : State) : Prop :=
  s.msgH32.InSpace s.lenW ∧ s.msgX86.InSpace s.lenW ∧ s.msgX64.InSpace s.lenW

/-! ### Events -/

/-- The base address of an engine's bank (R37). -/
def bank : Engine → BitVec 8
  | .h32 => 0x00
  | .x86 => 0x40
  | .x64 => 0x80

/-- An event that a platform may bring: port accesses are word-aligned (R206), message offsets exist (R69). -/
def Input.admitted (lenW : Nat) : Input → Bool
  | .hostWrite T => decide (T.extractLsb' 32 2 = 0)
  | .hostRead A => decide (A.extractLsb' 0 2 = 0)
  | .engineTurn _ => true
  | .reset => true
  | .messageByte _ off _ => decide (off.toNat < 2 ^ lenW)

/-- Every event still to come is one that a platform may bring. -/
def State.admitted (s : State) : Bool :=
  s.inputs.all (Input.admitted s.lenW)

/-- The event is a host write to the register at an offset of an engine's bank (R91, R37). -/
def Input.writesAt (e : Engine) (offset : BitVec 8) : Input → Bool
  | .hostWrite T => decide (T.extractLsb' 32 8 = bank e + offset)
  | .hostRead _ => false
  | .engineTurn _ => false
  | .reset => false
  | .messageByte _ _ _ => false

/-- The event is the START command of an engine (R95). -/
def Input.starts (e : Engine) : Input → Bool
  | .hostWrite T => decide (T.extractLsb' 32 8 = bank e) && T.getLsbD 0
  | .hostRead _ => false
  | .engineTurn _ => false
  | .reset => false
  | .messageByte _ _ _ => false

/-- The event is the reset event (R250). -/
def Input.isReset : Input → Bool
  | .hostWrite _ => false
  | .hostRead _ => false
  | .engineTurn _ => false
  | .reset => true
  | .messageByte _ _ _ => false

/-- The event is a change of a byte of an engine's message space (R254). -/
def Input.changesMessage (e : Engine) : Input → Bool
  | .hostWrite _ => false
  | .hostRead _ => false
  | .engineTurn _ => false
  | .reset => false
  | .messageByte e' _ _ => decide (e' = e)

/-- An event that lets a run of engine `e` go on as it is: no reset, no change of its message, no further START of it. -/
def Input.leavesRun (e : Engine) (i : Input) : Bool :=
  !i.isReset && !i.changesMessage e && !i.starts e

/-- The word-aligned addresses that R37 gives to no register (R38): offsets 0x14 to 0x1C and 0x30 to 0x3C of every bank,
offsets 0x24 to 0x2C of the H32 bank, the whole bank at 0xC0. -/
def reservedWord (A : BitVec 8) : Bool :=
  let offset := (A.extractLsb' 0 6).toNat
  decide (A.extractLsb' 0 2 = 0)
    && (decide (offset = 0x14) || decide (offset = 0x18) || decide (offset = 0x1C) || decide (0x30 ≤ offset)
      || (decide (A.extractLsb' 6 2 = 0) && (decide (offset = 0x24) || decide (offset = 0x28) || decide (offset = 0x2C)))
      || decide (A.extractLsb' 6 2 = 3))

/-- The registers of a bank that ignore writes: STATUS and the DIGEST words (R33 to R36). -/
def readOnlyRegister (e : Engine) (A : BitVec 8) : Bool :=
  decide (A = bank e + 0x04) || decide (A = bank e + 0x20)
    || (decide (e ≠ .h32) && (decide (A = bank e + 0x24) || decide (A = bank e + 0x28) || decide (A = bank e + 0x2C)))

/-! ### Runs -/

/-- The byte of a run's tail at tail offset `t`, 0 where the message has ended (R64). -/
def State.tailByte (s : State) (e : Engine) (t : Nat) : Byte :=
  if (s.ctl e).off.toNat + t < (s.ctl e).lenQ.toNat then memRead (s.msg e) ((s.ctl e).off.toNat + t) else 0

/-- The byte of a block at block offset `t` (R66). -/
def State.blockByte (s : State) (e : Engine) (t : Nat) : Byte :=
  memRead (s.msg e) ((s.ctl e).off.toNat + t)

/-- The `len` bytes at offsets `0 .. len-1` of an engine's message space. -/
def State.message (s : State) (e : Engine) (len : Nat) : List Byte :=
  (List.range len).map fun j => memRead (s.msg e) j

/-- The engine steps of a run of `len` bytes after its START (R262). -/
def stepsOfRun (e : Engine) (len : Nat) : Nat :=
  len / blockSize e + 2

end Sys2Proof.Machine
end

