-- ==== Sys2Proof/Certificates/Slice0/Obligations.lean ====
section
/-! DEFINITION. The statements for the provers, from the numbered rules of the spec. -/

open Sys2Proof Sys2Proof.Machine

/-- The decoder reads back what the encoder writes, for every well-formed instruction and every operand
(spec/30_encoding.md). -/
def Obligations.DecodeOfEncode : Prop :=
  ∀ i : Instr, i.wellFormed = true → decode (encode i) = .instr i

/-- A request that decodes to an instruction is that instruction's only encoding: no two requests share an instruction, and
the decoder answers well-formed instructions only (spec/30_encoding.md). -/
def Obligations.EncodeOfDecode : Prop :=
  ∀ (r : Request) (i : Instr), decode r = .instr i → i.wellFormed = true ∧ encode i = r

/-- The match and mask columns of R95: a host write word names a row of the HOSTWR map exactly where it agrees with the
row's match under the row's mask, and the data it carries is `T[31:0]`; a CTRL write with bit 0 clear names none. -/
def Obligations.HostWriteRows : Prop :=
  ∀ T : BitVec 40,
    (T &&& 0xFF00000001 = 0x0000000001 ↔ decode (.write T) = .instr (.h32Start (T.setWidth 32))) ∧
    (T &&& 0xFF00000000 = 0x0800000000 ↔ decode (.write T) = .instr (.h32WrSeed (T.setWidth 32))) ∧
    (T &&& 0xFF00000000 = 0x0C00000000 ↔ decode (.write T) = .instr (.h32WrLen (T.setWidth 32))) ∧
    (T &&& 0xFF00000000 = 0x1000000000 ↔ decode (.write T) = .instr (.h32WrLenHi (T.setWidth 32))) ∧
    (T &&& 0xFF00000001 = 0x4000000001 ↔ decode (.write T) = .instr (.x86Start (T.setWidth 32))) ∧
    (T &&& 0xFF00000000 = 0x4800000000 ↔ decode (.write T) = .instr (.x86WrSeed (T.setWidth 32))) ∧
    (T &&& 0xFF00000000 = 0x4C00000000 ↔ decode (.write T) = .instr (.x86WrLen (T.setWidth 32))) ∧
    (T &&& 0xFF00000000 = 0x5000000000 ↔ decode (.write T) = .instr (.x86WrLenHi (T.setWidth 32))) ∧
    (T &&& 0xFF00000001 = 0x8000000001 ↔ decode (.write T) = .instr (.x64Start (T.setWidth 32))) ∧
    (T &&& 0xFF00000000 = 0x8800000000 ↔ decode (.write T) = .instr (.x64WrSeed (T.setWidth 32))) ∧
    (T &&& 0xFF00000000 = 0x8C00000000 ↔ decode (.write T) = .instr (.x64WrLen (T.setWidth 32))) ∧
    (T &&& 0xFF00000000 = 0x9000000000 ↔ decode (.write T) = .instr (.x64WrLenHi (T.setWidth 32))) ∧
    (T &&& 0xFF00000001 = 0x0000000000 ∨ T &&& 0xFF00000001 = 0x4000000000 ∨ T &&& 0xFF00000001 = 0x8000000000 →
      decode (.write T) = .ignoredWrite)

/-- The address columns of R102: the HOSTRD map, all eight address bits matched; every other aligned address (CTRL among
them) has no row. -/
def Obligations.HostReadRows : Prop :=
  decode (.read 0x04) = .instr .h32RdStatus ∧
  decode (.read 0x08) = .instr .h32RdSeed ∧
  decode (.read 0x0C) = .instr .h32RdLen ∧
  decode (.read 0x10) = .instr .h32RdLenHi ∧
  decode (.read 0x20) = .instr .h32RdDigest0 ∧
  decode (.read 0x44) = .instr .x86RdStatus ∧
  decode (.read 0x48) = .instr .x86RdSeed ∧
  decode (.read 0x4C) = .instr .x86RdLen ∧
  decode (.read 0x50) = .instr .x86RdLenHi ∧
  decode (.read 0x60) = .instr .x86RdDigest0 ∧
  decode (.read 0x64) = .instr .x86RdDigest1 ∧
  decode (.read 0x68) = .instr .x86RdDigest2 ∧
  decode (.read 0x6C) = .instr .x86RdDigest3 ∧
  decode (.read 0x84) = .instr .x64RdStatus ∧
  decode (.read 0x88) = .instr .x64RdSeed ∧
  decode (.read 0x8C) = .instr .x64RdLen ∧
  decode (.read 0x90) = .instr .x64RdLenHi ∧
  decode (.read 0xA0) = .instr .x64RdDigest0 ∧
  decode (.read 0xA4) = .instr .x64RdDigest1 ∧
  decode (.read 0xA8) = .instr .x64RdDigest2 ∧
  decode (.read 0xAC) = .instr .x64RdDigest3 ∧
  ∀ A : BitVec 8, A.extractLsb' 0 2 = 0 →
    A.toNat ∉ [0x04, 0x08, 0x0C, 0x10, 0x20, 0x44, 0x48, 0x4C, 0x50, 0x60, 0x64,
      0x68, 0x6C, 0x84, 0x88, 0x8C, 0x90, 0xA0, 0xA4, 0xA8, 0xAC] →
    decode (.read A) = .zeroRead

/-- R94: the sequencer map, every selector value. -/
def Obligations.SelectorRows : Prop :=
  decode (.select 0b00001) = .instr .h32Block ∧
  decode (.select 0b00010) = .instr .h32Tail ∧
  decode (.select 0b00011) = .instr .h32Final ∧
  decode (.select 0b01001) = .instr .x86Block ∧
  decode (.select 0b01010) = .instr .x86Tail ∧
  decode (.select 0b01011) = .instr .x86Final ∧
  decode (.select 0b10001) = .instr .x64Block ∧
  decode (.select 0b10010) = .instr .x64Tail ∧
  decode (.select 0b10011) = .instr .x64Final ∧
  (∀ S : BitVec 5, S.extractLsb' 3 2 ≠ 3 → S.extractLsb' 0 3 = 0 ∨ S.extractLsb' 0 3 = 4 → decode (.select S) = .noStep) ∧
  (∀ S : BitVec 5, S.extractLsb' 3 2 = 3 ∨ 4 < (S.extractLsb' 0 3).toNat → decode (.select S) = .unnamedSelector)

/-- Words that spec/95_test_vectors.md section 3 writes out (P1, P3, P4, P5) decode to the lines they stand for. -/
def Obligations.SpecWordsDecode : Prop :=
  decode (.write 0x0800000001) = .instr (.h32WrSeed 0x00000001) ∧
  decode (.write 0x0C00000009) = .instr (.h32WrLen 0x00000009) ∧
  decode (.write 0x0000000001) = .instr (.h32Start 0x00000001) ∧
  decode (.write 0x089747B28C) = .instr (.h32WrSeed 0x9747B28C) ∧
  decode (.read 0x04) = .instr .h32RdStatus ∧
  decode (.read 0x20) = .instr .h32RdDigest0 ∧
  decode (.select 0b00010) = .instr .h32Tail ∧
  decode (.write 0x4C00000011) = .instr (.x86WrLen 0x00000011) ∧
  decode (.write 0x4000000001) = .instr (.x86Start 0x00000001) ∧
  decode (.read 0x6C) = .instr .x86RdDigest3 ∧
  decode (.select 0b01001) = .instr .x86Block ∧
  decode (.write 0x8C00000011) = .instr (.x64WrLen 0x00000011) ∧
  decode (.read 0xA4) = .instr .x64RdDigest1 ∧
  decode (.select 0b10011) = .instr .x64Final

/-- A step runs the decoded instruction: the oldest event, a host transaction or an engine's turn, is taken off the schedule
and its instruction's meaning is run on what remains (R12, R27, R71). -/
def Obligations.StepRunsDecoded : Prop :=
  ∀ (s : State) (rest : List Input) (i : Instr),
    (∀ T : BitVec 40, s.inputs = .hostWrite T :: rest → decode (.write T) = .instr i →
      step s = exec i { s with inputs := rest }) ∧
    (∀ A : BitVec 8, s.inputs = .hostRead A :: rest → decode (.read A) = .instr i →
      step s = exec i { s with inputs := rest }) ∧
    (∀ e : Engine, s.inputs = .engineTurn e :: rest → decode (.select (selector e (s.ctl e).phase)) = .instr i →
      step s = exec i { s with inputs := rest }) ∧
    (∀ e : Engine, s.inputs = .engineTurn e :: rest → (s.ctl e).phase = .idle ∨ (s.ctl e).phase = .done →
      step s = .next { s with inputs := rest })

/-- A word of the opcode table placed by `withFetchWord` is what the next step runs: a host transaction on the state as it
was, a sequencer operation on the state with its engine in the phase that selects it (log 1). -/
def Obligations.PlacedWordRunsNext : Prop :=
  ∀ (s : State) (i : Instr),
    (∀ w : Nat, w < 2 ^ 40 → decode (.write (BitVec.ofNat 40 w)) = .instr i →
      step (s.withFetchWord 40 w) = exec i s) ∧
    (∀ w : Nat, w < 2 ^ 8 → w % 4 = 0 → decode (.read (BitVec.ofNat 8 w)) = .instr i →
      step (s.withFetchWord 8 w) = exec i s) ∧
    (∀ (e : Engine) (p : Phase), decode (.select (selector e p)) = .instr i →
      step (s.withFetchWord 8 (selector e p).toNat) = exec i (s.setCtl e { s.ctl e with phase := p }))

/-- R208: a read of a reserved word returns 0; a write to a reserved word, to STATUS or to a DIGEST register changes
nothing; neither raises anything. -/
def Obligations.ReservedAccess : Prop :=
  ∀ (s : State) (A : BitVec 8) (D : Word32),
    (reservedWord A = true →
      runInput (.hostRead A) s = .next { s with answers := 0 :: s.answers } ∧
      runInput (.hostWrite (A ++ D)) s = .next s) ∧
    (∀ e : Engine, readOnlyRegister e A = true → runInput (.hostWrite (A ++ D)) s = .next s)

/-- R210: a CTRL write with bit 0 clear does nothing in any phase; DONE is left only by a START of the engine or by reset,
and IDLE is reached only by reset. -/
def Obligations.OnlyStartOrResetEndsDone : Prop :=
  (∀ (s : State) (e : Engine) (D : Word32), D.getLsbD 0 = false →
    runInput (.hostWrite (bank e ++ D)) s = .next s) ∧
  (∀ (s t : State) (e : Engine), step s = .next t →
    ((s.ctl e).phase = .done → (t.ctl e).phase ≠ .done →
      ∃ i rest, s.inputs = i :: rest ∧ (i.starts e = true ∨ i.isReset = true)) ∧
    ((s.ctl e).phase ≠ .idle → (t.ctl e).phase = .idle → ∃ rest, s.inputs = .reset :: rest))

/-- A host access with `A[1:0] ≠ 0`, which the spec leaves UNSPECIFIED (R206, U5), is refused by name: the model's choice,
log 11. -/
def Obligations.MisalignedAccessRefused : Prop :=
  ∀ (s : State) (A : BitVec 8) (D : Word32), A.extractLsb' 0 2 ≠ 0 →
    runInput (.hostRead A) s = .refused .misalignedAccess ∧
    runInput (.hostWrite (A ++ D)) s = .refused .misalignedAccess

/-- R202: WR_SEED sets SEED to the data, in every phase, and changes nothing else. -/
def Obligations.WriteSeed : Prop :=
  ∀ (s : State) (D : Word32),
    exec (.h32WrSeed D) s = .next { s with h32 := { s.h32 with ctl := { s.h32.ctl with seed := D } } } ∧
    exec (.x86WrSeed D) s = .next { s with x86 := { s.x86 with ctl := { s.x86.ctl with seed := D } } } ∧
    exec (.x64WrSeed D) s = .next { s with x64 := { s.x64 with ctl := { s.x64.ctl with seed := D } } }

/-- R203: WR_LEN replaces bits `min(LEN_W,32)-1 .. 0` of LEN by the data's; WR_LEN_HI replaces bits `LEN_W-1 .. 32`, and so
none where `LEN_W <= 32`; every other bit and everything else stays. -/
def Obligations.WriteLen : Prop :=
  ∀ (s : State) (D : Word32), s.lenW ≤ 64 →
    (∃ L : Word64, exec (.h32WrLen D) s = .next { s with h32 := { s.h32 with ctl := { s.h32.ctl with len := L } } } ∧
      ∀ i < 64, L.getLsbD i = if i < min s.lenW 32 then D.getLsbD i else s.h32.ctl.len.getLsbD i) ∧
    (s.h32.ctl.len.toNat < 2 ^ s.lenW →
      ∃ L : Word64, exec (.h32WrLenHi D) s = .next { s with h32 := { s.h32 with ctl := { s.h32.ctl with len := L } } } ∧
        ∀ i < 64, L.getLsbD i = if 32 ≤ i ∧ i < s.lenW then D.getLsbD (i - 32) else s.h32.ctl.len.getLsbD i) ∧
    (∃ L : Word64, exec (.x86WrLen D) s = .next { s with x86 := { s.x86 with ctl := { s.x86.ctl with len := L } } } ∧
      ∀ i < 64, L.getLsbD i = if i < min s.lenW 32 then D.getLsbD i else s.x86.ctl.len.getLsbD i) ∧
    (s.x86.ctl.len.toNat < 2 ^ s.lenW →
      ∃ L : Word64, exec (.x86WrLenHi D) s = .next { s with x86 := { s.x86 with ctl := { s.x86.ctl with len := L } } } ∧
        ∀ i < 64, L.getLsbD i = if 32 ≤ i ∧ i < s.lenW then D.getLsbD (i - 32) else s.x86.ctl.len.getLsbD i) ∧
    (∃ L : Word64, exec (.x64WrLen D) s = .next { s with x64 := { s.x64 with ctl := { s.x64.ctl with len := L } } } ∧
      ∀ i < 64, L.getLsbD i = if i < min s.lenW 32 then D.getLsbD i else s.x64.ctl.len.getLsbD i) ∧
    (s.x64.ctl.len.toNat < 2 ^ s.lenW →
      ∃ L : Word64, exec (.x64WrLenHi D) s = .next { s with x64 := { s.x64 with ctl := { s.x64.ctl with len := L } } } ∧
        ∀ i < 64, L.getLsbD i = if 32 ≤ i ∧ i < s.lenW then D.getLsbD (i - 32) else s.x64.ctl.len.getLsbD i)

/-- R207: the reads of SEED, LEN and LEN_HI return the register the host wrote and change no state; a read of CTRL returns
0. -/
def Obligations.ReadRegisters : Prop :=
  ∀ s : State, s.lenW ≤ 64 →
    exec .h32RdSeed s = .next { s with answers := s.h32.ctl.seed :: s.answers } ∧
    exec .h32RdLen s = .next { s with answers := BitVec.ofNat 32 (s.h32.ctl.len.toNat % 2 ^ min s.lenW 32) :: s.answers } ∧
    (s.h32.ctl.len.toNat < 2 ^ s.lenW →
      exec .h32RdLenHi s = .next
        { s with answers := (if 32 < s.lenW then BitVec.ofNat 32 (s.h32.ctl.len.toNat / 2 ^ 32) else 0) :: s.answers }) ∧
    runInput (.hostRead 0x00) s = .next { s with answers := 0 :: s.answers } ∧
    exec .x86RdSeed s = .next { s with answers := s.x86.ctl.seed :: s.answers } ∧
    exec .x86RdLen s = .next { s with answers := BitVec.ofNat 32 (s.x86.ctl.len.toNat % 2 ^ min s.lenW 32) :: s.answers } ∧
    (s.x86.ctl.len.toNat < 2 ^ s.lenW →
      exec .x86RdLenHi s = .next
        { s with answers := (if 32 < s.lenW then BitVec.ofNat 32 (s.x86.ctl.len.toNat / 2 ^ 32) else 0) :: s.answers }) ∧
    runInput (.hostRead 0x40) s = .next { s with answers := 0 :: s.answers } ∧
    exec .x64RdSeed s = .next { s with answers := s.x64.ctl.seed :: s.answers } ∧
    exec .x64RdLen s = .next { s with answers := BitVec.ofNat 32 (s.x64.ctl.len.toNat % 2 ^ min s.lenW 32) :: s.answers } ∧
    (s.x64.ctl.len.toNat < 2 ^ s.lenW →
      exec .x64RdLenHi s = .next
        { s with answers := (if 32 < s.lenW then BitVec.ofNat 32 (s.x64.ctl.len.toNat / 2 ^ 32) else 0) :: s.answers }) ∧
    runInput (.hostRead 0x80) s = .next { s with answers := 0 :: s.answers }

/-- R204: RD_STATUS returns the word of the phase and changes no state. -/
def Obligations.ReadStatus : Prop :=
  ∀ (s : State) (word : Phase → Word32),
    word .idle = 0x00000000 → word .block = 0x00000011 → word .tail = 0x00000021 → word .final = 0x00000031 →
    word .done = 0x00000042 →
    exec .h32RdStatus s = .next { s with answers := word s.h32.ctl.phase :: s.answers } ∧
    exec .x86RdStatus s = .next { s with answers := word s.x86.ctl.phase :: s.answers } ∧
    exec .x64RdStatus s = .next { s with answers := word s.x64.ctl.phase :: s.answers }

/-- R43, and the bits of R29 and R33: BUSY is 1 exactly in BLOCK, TAIL and FINAL, DONE exactly in DONE; the wire `e.done`
equals the DONE bit of the word that STATUS reads as, whose PHASE field is the phase's code and whose other bits are 0. -/
def Obligations.StatusBits : Prop :=
  ∀ (s : State) (e : Engine),
    ((statusWord (s.ctl e).phase).getLsbD 0 = true ↔
      (s.ctl e).phase = .block ∨ (s.ctl e).phase = .tail ∨ (s.ctl e).phase = .final) ∧
    ((statusWord (s.ctl e).phase).getLsbD 1 = true ↔ (s.ctl e).phase = .done) ∧
    s.doneWire e = (statusWord (s.ctl e).phase).getLsbD 1 ∧
    (statusWord (s.ctl e).phase).extractLsb' 4 3 = phaseCode (s.ctl e).phase ∧
    (statusWord (s.ctl e).phase) &&& 0xFFFFFF8C = 0

/-- R205 with the views R34 to R36: in DONE a DIGEST read returns its word (H32 h1; X86 h1 to h4; X64 h1 as DIGEST1 ∥
DIGEST0, h2 as DIGEST3 ∥ DIGEST2) and changes no state; in every other phase it returns a free value, whatever that is,
and only the model's own count of draws moves: that the value is the engine's next draw is the model's choice (log 6). -/
def Obligations.ReadDigest : Prop :=
  ∀ s : State,
    (s.h32.ctl.phase = .done → exec .h32RdDigest0 s = .next { s with answers := s.h32.h1 :: s.answers }) ∧
    (s.x86.ctl.phase = .done →
      exec .x86RdDigest0 s = .next { s with answers := s.x86.h1 :: s.answers } ∧
      exec .x86RdDigest1 s = .next { s with answers := s.x86.h2 :: s.answers } ∧
      exec .x86RdDigest2 s = .next { s with answers := s.x86.h3 :: s.answers } ∧
      exec .x86RdDigest3 s = .next { s with answers := s.x86.h4 :: s.answers }) ∧
    (s.x64.ctl.phase = .done → ∃ d0 d1 d2 d3 : Word32, d1 ++ d0 = s.x64.h1 ∧ d3 ++ d2 = s.x64.h2 ∧
      exec .x64RdDigest0 s = .next { s with answers := d0 :: s.answers } ∧
      exec .x64RdDigest1 s = .next { s with answers := d1 :: s.answers } ∧
      exec .x64RdDigest2 s = .next { s with answers := d2 :: s.answers } ∧
      exec .x64RdDigest3 s = .next { s with answers := d3 :: s.answers }) ∧
    (s.h32.ctl.phase ≠ .done →
      let t : State := { s with h32 := { s.h32 with ctl := { s.h32.ctl with draws := s.h32.ctl.draws + 1 } } }
      let v := free32 .h32 s.h32.ctl.draws
      exec .h32RdDigest0 s = .next { t with answers := v :: t.answers }) ∧
    (s.x86.ctl.phase ≠ .done →
      let t : State := { s with x86 := { s.x86 with ctl := { s.x86.ctl with draws := s.x86.ctl.draws + 1 } } }
      let v := free32 .x86 s.x86.ctl.draws
      exec .x86RdDigest0 s = .next { t with answers := v :: t.answers } ∧
      exec .x86RdDigest1 s = .next { t with answers := v :: t.answers } ∧
      exec .x86RdDigest2 s = .next { t with answers := v :: t.answers } ∧
      exec .x86RdDigest3 s = .next { t with answers := v :: t.answers }) ∧
    (s.x64.ctl.phase ≠ .done →
      let t : State := { s with x64 := { s.x64 with ctl := { s.x64.ctl with draws := s.x64.ctl.draws + 1 } } }
      let v := free32 .x64 s.x64.ctl.draws
      exec .x64RdDigest0 s = .next { t with answers := v :: t.answers } ∧
      exec .x64RdDigest1 s = .next { t with answers := v :: t.answers } ∧
      exec .x64RdDigest2 s = .next { t with answers := v :: t.answers } ∧
      exec .x64RdDigest3 s = .next { t with answers := v :: t.answers })

/-- R140, R160, R180, R200, R201: a START in IDLE or DONE copies SEED into every accumulator (zero-extended in X64) and
LEN into `len_q`, clears the offset and goes to BLOCK or TAIL; in BLOCK, TAIL and FINAL it changes nothing. Bits 31 to 1
of the data do not matter. The model's own mark of a disturbed run (log 9) is cleared as well. -/
def Obligations.StartInitialises : Prop :=
  ∀ (s : State) (D : Word32), D.getLsbD 0 = true →
    (exec (.h32Start D) s = .next
      (if s.h32.ctl.phase = .idle ∨ s.h32.ctl.phase = .done then
        { s with h32 :=
          { h1 := s.h32.ctl.seed
            ctl := { s.h32.ctl with lenQ := s.h32.ctl.len, off := 0, disturbed := false, phase :=
                if 4 ≤ s.h32.ctl.len.toNat then .block else .tail } } }
       else s)) ∧
    (exec (.x86Start D) s = .next
      (if s.x86.ctl.phase = .idle ∨ s.x86.ctl.phase = .done then
        { s with x86 :=
          { h1 := s.x86.ctl.seed, h2 := s.x86.ctl.seed, h3 := s.x86.ctl.seed, h4 := s.x86.ctl.seed
            ctl := { s.x86.ctl with lenQ := s.x86.ctl.len, off := 0, disturbed := false, phase :=
                if 16 ≤ s.x86.ctl.len.toNat then .block else .tail } } }
       else s)) ∧
    (exec (.x64Start D) s = .next
      (if s.x64.ctl.phase = .idle ∨ s.x64.ctl.phase = .done then
        { s with x64 :=
          { h1 := s.x64.ctl.seed.zeroExtend 64, h2 := s.x64.ctl.seed.zeroExtend 64
            ctl := { s.x64.ctl with lenQ := s.x64.ctl.len, off := 0, disturbed := false, phase :=
                if 16 ≤ s.x64.ctl.len.toNat then .block else .tail } } }
       else s))

/-- R141: one block of H32, on the little-endian word of the four bytes at the offset. -/
def Obligations.H32BlockResult : Prop :=
  ∀ s : State, s.lenW ≤ 64 → s.h32.ctl.lenQ.toNat < 2 ^ s.lenW →
    s.h32.ctl.off.toNat + 4 ≤ s.h32.ctl.lenQ.toNat →
    let k1 : Word32 := s.blockByte .h32 3 ++ s.blockByte .h32 2 ++ s.blockByte .h32 1 ++ s.blockByte .h32 0
    let m := kmix32 k1 0xCC9E2D51 15 0x1B873593
    exec .h32Block s = .next
      { s with h32 :=
        { h1 := rotl32 (s.h32.h1 ^^^ m) 13 * 5 + 0xE6546B64
          ctl := { s.h32.ctl with
            off := s.h32.ctl.off + 4
            phase := if 4 ≤ s.h32.ctl.lenQ.toNat - (s.h32.ctl.off.toNat + 4) then .block else .tail } } }

/-- R142: the tail of H32: with no byte left the accumulator stays, else it absorbs the word of the bytes present, and
nothing more. -/
def Obligations.H32TailResult : Prop :=
  ∀ s : State, s.lenW ≤ 64 → s.h32.ctl.lenQ.toNat < 2 ^ s.lenW →
    s.h32.ctl.lenQ.toNat < s.h32.ctl.off.toNat + 4 →
    let k1 : Word32 := 0#8 ++ s.tailByte .h32 2 ++ s.tailByte .h32 1 ++ s.tailByte .h32 0
    exec .h32Tail s = .next
      { s with h32 :=
        { h1 := if 0 < s.h32.ctl.lenQ.toNat - s.h32.ctl.off.toNat then s.h32.h1 ^^^ kmix32 k1 0xCC9E2D51 15 0x1B873593 else s.h32.h1
          ctl := { s.h32.ctl with off := s.h32.ctl.lenQ, phase := .final } } }

/-- R143: FINAL of H32 on an undisturbed run: the length modulo 2^32 is xored in and the avalanche of R123 applied, line by
line. -/
def Obligations.H32FinalResult : Prop :=
  ∀ s : State, s.h32.ctl.disturbed = false →
    let a := s.h32.h1 ^^^ BitVec.ofNat 32 (s.h32.ctl.lenQ.toNat % 2 ^ 32)
    let a := a ^^^ (a >>> 16)
    let a := a * 0x85EBCA6B
    let a := a ^^^ (a >>> 13)
    let a := a * 0xC2B2AE35
    let a := a ^^^ (a >>> 16)
    exec .h32Final s = .next { s with h32 := { h1 := a, ctl := { s.h32.ctl with phase := .done } } }

/-- R161, R165, R166: one block of X86: the four lanes in order, lane 4 adding the new h1. -/
def Obligations.X86BlockResult : Prop :=
  ∀ s : State, s.lenW ≤ 64 → s.x86.ctl.lenQ.toNat < 2 ^ s.lenW →
    s.x86.ctl.off.toNat + 16 ≤ s.x86.ctl.lenQ.toNat →
    let k1 : Word32 := s.blockByte .x86 3 ++ s.blockByte .x86 2 ++ s.blockByte .x86 1 ++ s.blockByte .x86 0
    let k2 : Word32 := s.blockByte .x86 7 ++ s.blockByte .x86 6 ++ s.blockByte .x86 5 ++ s.blockByte .x86 4
    let k3 : Word32 := s.blockByte .x86 11 ++ s.blockByte .x86 10 ++ s.blockByte .x86 9 ++ s.blockByte .x86 8
    let k4 : Word32 := s.blockByte .x86 15 ++ s.blockByte .x86 14 ++ s.blockByte .x86 13 ++ s.blockByte .x86 12
    let h1 := (rotl32 (s.x86.h1 ^^^ kmix32 k1 0x239B961B 15 0xAB0E9789) 19 + s.x86.h2) * 5 + 0x561CCD1B
    let h2 := (rotl32 (s.x86.h2 ^^^ kmix32 k2 0xAB0E9789 16 0x38B34AE5) 17 + s.x86.h3) * 5 + 0x0BCAA747
    let h3 := (rotl32 (s.x86.h3 ^^^ kmix32 k3 0x38B34AE5 17 0xA1E38B93) 15 + s.x86.h4) * 5 + 0x96CD1C35
    let h4 := (rotl32 (s.x86.h4 ^^^ kmix32 k4 0xA1E38B93 18 0x239B961B) 13 + h1) * 5 + 0x32AC3B17
    exec .x86Block s = .next
      { s with x86 :=
        { h1 := h1, h2 := h2, h3 := h3, h4 := h4
          ctl := { s.x86.ctl with
            off := s.x86.ctl.off + 16
            phase := if 16 ≤ s.x86.ctl.lenQ.toNat - (s.x86.ctl.off.toNat + 16) then .block else .tail } } }

/-- R162: the tail of X86: each lane that received a byte absorbs its word, and nothing more; at most 15 bytes are left. -/
def Obligations.X86TailResult : Prop :=
  ∀ s : State, s.lenW ≤ 64 → s.x86.ctl.lenQ.toNat < 2 ^ s.lenW →
    s.x86.ctl.lenQ.toNat < s.x86.ctl.off.toNat + 16 →
    let k1 : Word32 := s.tailByte .x86 3 ++ s.tailByte .x86 2 ++ s.tailByte .x86 1 ++ s.tailByte .x86 0
    let k2 : Word32 := s.tailByte .x86 7 ++ s.tailByte .x86 6 ++ s.tailByte .x86 5 ++ s.tailByte .x86 4
    let k3 : Word32 := s.tailByte .x86 11 ++ s.tailByte .x86 10 ++ s.tailByte .x86 9 ++ s.tailByte .x86 8
    let k4 : Word32 := 0#8 ++ s.tailByte .x86 14 ++ s.tailByte .x86 13 ++ s.tailByte .x86 12
    let r := s.x86.ctl.lenQ.toNat - s.x86.ctl.off.toNat
    exec .x86Tail s = .next
      { s with x86 :=
        { h1 := if 0 < r then s.x86.h1 ^^^ kmix32 k1 0x239B961B 15 0xAB0E9789 else s.x86.h1
          h2 := if 4 < r then s.x86.h2 ^^^ kmix32 k2 0xAB0E9789 16 0x38B34AE5 else s.x86.h2
          h3 := if 8 < r then s.x86.h3 ^^^ kmix32 k3 0x38B34AE5 17 0xA1E38B93 else s.x86.h3
          h4 := if 12 < r then s.x86.h4 ^^^ kmix32 k4 0xA1E38B93 18 0x239B961B else s.x86.h4
          ctl := { s.x86.ctl with off := s.x86.ctl.lenQ, phase := .final } } }

/-- R163: FINAL of X86 on an undisturbed run: length xor, cross-add, four avalanches, cross-add. -/
def Obligations.X86FinalResult : Prop :=
  ∀ s : State, s.x86.ctl.disturbed = false →
    let n : Word32 := BitVec.ofNat 32 (s.x86.ctl.lenQ.toNat % 2 ^ 32)
    let a1 := s.x86.h1 ^^^ n
    let a2 := s.x86.h2 ^^^ n
    let a3 := s.x86.h3 ^^^ n
    let a4 := s.x86.h4 ^^^ n
    let b1 := a1 + a2 + a3 + a4
    let b2 := a2 + b1
    let b3 := a3 + b1
    let b4 := a4 + b1
    let c1 := fmix32 b1
    let c2 := fmix32 b2
    let c3 := fmix32 b3
    let c4 := fmix32 b4
    let d1 := c1 + c2 + c3 + c4
    let d2 := c2 + d1
    let d3 := c3 + d1
    let d4 := c4 + d1
    exec .x86Final s = .next
      { s with x86 := { h1 := d1, h2 := d2, h3 := d3, h4 := d4, ctl := { s.x86.ctl with phase := .done } } }

/-- R181, R185: one block of X64: lane 1 adds the old h2, lane 2 the new h1. -/
def Obligations.X64BlockResult : Prop :=
  ∀ s : State, s.lenW ≤ 64 → s.x64.ctl.lenQ.toNat < 2 ^ s.lenW →
    s.x64.ctl.off.toNat + 16 ≤ s.x64.ctl.lenQ.toNat →
    let k1 : Word64 := s.blockByte .x64 7 ++ s.blockByte .x64 6 ++ s.blockByte .x64 5 ++ s.blockByte .x64 4 ++
       s.blockByte .x64 3 ++ s.blockByte .x64 2 ++ s.blockByte .x64 1 ++ s.blockByte .x64 0
    let k2 : Word64 := s.blockByte .x64 15 ++ s.blockByte .x64 14 ++ s.blockByte .x64 13 ++ s.blockByte .x64 12 ++
       s.blockByte .x64 11 ++ s.blockByte .x64 10 ++ s.blockByte .x64 9 ++ s.blockByte .x64 8
    let h1 := (rotl64 (s.x64.h1 ^^^ kmix64 k1 0x87C37B91114253D5 31 0x4CF5AD432745937F) 27 + s.x64.h2) * 5 + 0x52DCE729
    let h2 := (rotl64 (s.x64.h2 ^^^ kmix64 k2 0x4CF5AD432745937F 33 0x87C37B91114253D5) 31 + h1) * 5 + 0x38495AB5
    exec .x64Block s = .next
      { s with x64 :=
        { h1 := h1, h2 := h2
          ctl := { s.x64.ctl with
            off := s.x64.ctl.off + 16
            phase := if 16 ≤ s.x64.ctl.lenQ.toNat - (s.x64.ctl.off.toNat + 16) then .block else .tail } } }

/-- R182: the tail of X64: each word that received a byte is absorbed, and nothing more; at most 15 bytes are left. -/
def Obligations.X64TailResult : Prop :=
  ∀ s : State, s.lenW ≤ 64 → s.x64.ctl.lenQ.toNat < 2 ^ s.lenW →
    s.x64.ctl.lenQ.toNat < s.x64.ctl.off.toNat + 16 →
    let k1 : Word64 := s.tailByte .x64 7 ++ s.tailByte .x64 6 ++ s.tailByte .x64 5 ++ s.tailByte .x64 4 ++
       s.tailByte .x64 3 ++ s.tailByte .x64 2 ++ s.tailByte .x64 1 ++ s.tailByte .x64 0
    let k2 : Word64 := 0#8 ++ s.tailByte .x64 14 ++ s.tailByte .x64 13 ++ s.tailByte .x64 12 ++ s.tailByte .x64 11 ++
      s.tailByte .x64 10 ++ s.tailByte .x64 9 ++ s.tailByte .x64 8
    let r := s.x64.ctl.lenQ.toNat - s.x64.ctl.off.toNat
    exec .x64Tail s = .next
      { s with x64 :=
        { h1 := if 0 < r then s.x64.h1 ^^^ kmix64 k1 0x87C37B91114253D5 31 0x4CF5AD432745937F else s.x64.h1
          h2 := if 8 < r then s.x64.h2 ^^^ kmix64 k2 0x4CF5AD432745937F 33 0x87C37B91114253D5 else s.x64.h2
          ctl := { s.x64.ctl with off := s.x64.ctl.lenQ, phase := .final } } }

/-- R183: FINAL of X64 on an undisturbed run: zero-extended length xor, cross-add, the avalanche of R124, cross-add. -/
def Obligations.X64FinalResult : Prop :=
  ∀ s : State, s.x64.ctl.disturbed = false →
    let n : Word64 := BitVec.ofNat 64 s.x64.ctl.lenQ.toNat
    let a1 := (s.x64.h1 ^^^ n) + (s.x64.h2 ^^^ n)
    let a2 := (s.x64.h2 ^^^ n) + a1
    let b1 := fmix64 a1 + fmix64 a2
    let b2 := fmix64 a2 + b1
    exec .x64Final s = .next { s with x64 := { h1 := b1, h2 := b2, ctl := { s.x64.ctl with phase := .done } } }

/-- R70 as the model takes it (log 9, the model's choice): a change of a byte below `len_q` while the engine is busy marks
the run; FINAL of a marked run still reaches DONE and touches no other engine, whatever the digest is; the next accepted
START clears the mark. -/
def Obligations.DisturbedRun : Prop :=
  ∀ (s : State) (e : Engine) (off : Word64) (b : Byte), off.toNat < 2 ^ s.lenW →
    (busyBit (s.ctl e).phase = true → off.toNat < (s.ctl e).lenQ.toNat → memRead (s.msg e) off.toNat ≠ b →
      ∃ t, runInput (.messageByte e off b) s = .next t ∧ (t.ctl e).disturbed = true) ∧
    ((busyBit (s.ctl e).phase = false ∨ (s.ctl e).lenQ.toNat ≤ off.toNat) →
      ∃ t, runInput (.messageByte e off b) s = .next t ∧ (t.ctl e).disturbed = (s.ctl e).disturbed) ∧
    (∀ (D : Word32) (t : State), D.getLsbD 0 = true → busyBit (s.ctl e).phase = false →
      runInput (.hostWrite (bank e ++ D)) s = .next t → (t.ctl e).disturbed = false) ∧
    (s.h32.ctl.disturbed = true → ∃ x : H32, exec .h32Final s = .next { s with h32 := x } ∧ x.ctl.phase = .done) ∧
    (s.x86.ctl.disturbed = true → ∃ x : X86, exec .x86Final s = .next { s with x86 := x } ∧ x.ctl.phase = .done) ∧
    (s.x64.ctl.disturbed = true → ∃ x : X64, exec .x64Final s = .next { s with x64 := x } ∧ x.ctl.phase = .done)

/-- R120: the left rotate of 32 bits, by the source's formula and by bit positions. -/
def Obligations.Rotl32MovesBits : Prop :=
  (∀ (x : Word32) (r : Nat), r < 32 →
    rotl32 x r = ((x <<< r) ||| (x >>> (32 - r))) ∧
    ∀ i < 32, (rotl32 x r).getLsbD ((i + r) % 32) = x.getLsbD i) ∧
  rotl32 0x80000001 1 = 0x00000003 ∧
  rotl32 0x12345678 15 = 0x2B3C091A ∧
  rotl32 0x12345678 13 = 0x8ACF0246 ∧
  rotl32 0x00000001 31 = 0x80000000 ∧
  rotl32 0xDEADBEEF 17 = 0x7DDFBD5B

/-- R121: the left rotate of 64 bits, by the source's formula and by bit positions. -/
def Obligations.Rotl64MovesBits : Prop :=
  (∀ (x : Word64) (r : Nat), r < 64 →
    rotl64 x r = ((x <<< r) ||| (x >>> (64 - r))) ∧
    ∀ i < 64, (rotl64 x r).getLsbD ((i + r) % 64) = x.getLsbD i) ∧
  rotl64 0x8000000000000001 1 = 0x0000000000000003 ∧
  rotl64 0x0123456789ABCDEF 31 = 0xC4D5E6F78091A2B3 ∧
  rotl64 0x0123456789ABCDEF 33 = 0x13579BDE02468ACF ∧
  rotl64 0x0123456789ABCDEF 27 = 0x3C4D5E6F78091A2B

/-- R123, R124: the two finalizers, line by line, and the spec's worked examples of them. -/
def Obligations.FinalizersFollowTheirLines : Prop :=
  (∀ h : Word32,
    let a := h ^^^ (h >>> 16)
    let b := a * 0x85EBCA6B
    let c := b ^^^ (b >>> 13)
    let d := c * 0xC2B2AE35
    fmix32 h = d ^^^ (d >>> 16)) ∧
  (∀ h : Word64,
    let a := h ^^^ (h >>> 33)
    let b := a * 0xFF51AFD7ED558CCD
    let c := b ^^^ (b >>> 33)
    let d := c * 0xC4CEB9FE1A85EC53
    fmix64 h = d ^^^ (d >>> 33)) ∧
  fmix32 0 = 0 ∧
  fmix32 0x00000001 = 0x514E28B7 ∧
  fmix32 0xFFFFFFFF = 0x81F16F39 ∧
  fmix32 0x00000004 = 0x249CB285 ∧
  fmix32 0x80000000 = 0x6D3C65A0 ∧
  fmix32 0xDEADBEEF = 0x0DE5C6A9 ∧
  fmix64 0 = 0 ∧
  fmix64 0x0000000000000001 = 0xB456BCFC34C2CB2C ∧
  fmix64 0xFFFFFFFFFFFFFFFF = 0x64B5720B4B825F21 ∧
  fmix64 0x8000000000000000 = 0x8F780810AF31A493 ∧
  fmix64 0x0123456789ABCDEF = 0x87CBFBFE89022CEA

/-- R125, R126: the k-mix is multiply, rotate, multiply, all modulo the width, and the spec's worked examples of it. -/
def Obligations.KMixesFollowTheirLines : Prop :=
  (∀ (k a b : Word32) (r : Nat), r < 32 →
    kmix32 0 a r b = 0 ∧
    (kmix32 k a r b).toNat = ((rotl32 (BitVec.ofNat 32 (k.toNat * a.toNat)) r).toNat * b.toNat) % 2 ^ 32) ∧
  (∀ (k a b : Word64) (r : Nat), r < 64 →
    kmix64 0 a r b = 0 ∧
    (kmix64 k a r b).toNat = ((rotl64 (BitVec.ofNat 64 (k.toNat * a.toNat)) r).toNat * b.toNat) % 2 ^ 64) ∧
  kmix32 0x00000001 0xCC9E2D51 15 0x1B873593 = 0xC3539A5D ∧
  kmix32 0x04030201 0xCC9E2D51 15 0x1B873593 = 0xF93BDA2F ∧
  kmix32 0xFFFFFFFF 0xCC9E2D51 15 0x1B873593 = 0xBBEEB010 ∧
  kmix32 0x80000000 0xCC9E2D51 15 0x1B873593 = 0xCD64C000 ∧
  kmix64 0x0000000000000001 0x87C37B91114253D5 31 0x4CF5AD432745937F = 0x34E09D0B6BDEFE38 ∧
  kmix64 0x0000000000000001 0x4CF5AD432745937F 33 0x87C37B91114253D5 = 0x4E26F5539BB7C37E ∧
  kmix64 0x0807060504030201 0x87C37B91114253D5 31 0x4CF5AD432745937F = 0x84912EA0966DB987 ∧
  kmix64 0x0807060504030201 0x4CF5AD432745937F 33 0x87C37B91114253D5 = 0x1DF06633FBCC178E

/-- R122 (a), (c), (d), which the spec derives from R120 and R121: a rotate by 0 is the identity, all-zero and all-one
words rotate to themselves, and every rotate is a bijection. -/
def Obligations.RotatesLoseNothing : Prop :=
  (∀ x : Word32, rotl32 x 0 = x) ∧ (∀ x : Word64, rotl64 x 0 = x) ∧
  (∀ r < 32, rotl32 0 r = 0 ∧ rotl32 0xFFFFFFFF r = 0xFFFFFFFF ∧ Function.Bijective fun x => rotl32 x r) ∧
  (∀ r < 64, rotl64 0 r = 0 ∧ rotl64 0xFFFFFFFFFFFFFFFF r = 0xFFFFFFFFFFFFFFFF ∧ Function.Bijective fun x => rotl64 x r)

/-- R129 (a), (c), "a consequence of the definitions" in the spec's own words: the k-mix of 0 is 0; a k-mix with odd
multipliers is a bijection in its word, and both finalizers are bijections. -/
def Obligations.MixersAreBijections : Prop :=
  (∀ (a b : Word32) (r : Nat), r < 32 → kmix32 0 a r b = 0) ∧
  (∀ (a b : Word64) (r : Nat), r < 64 → kmix64 0 a r b = 0) ∧
  (∀ (a b : Word32) (r : Nat), r < 32 → a.getLsbD 0 = true → b.getLsbD 0 = true →
    Function.Bijective fun k => kmix32 k a r b) ∧
  (∀ (a b : Word64) (r : Nat), r < 64 → a.getLsbD 0 = true → b.getLsbD 0 = true →
    Function.Bijective fun k => kmix64 k a r b) ∧
  Function.Bijective fmix32 ∧ Function.Bijective fmix64

/-- R62: `MemRead(e, off, n)` is the sum of `msg(e)(off+j) * 2^(8j)`, for words of any width that holds `n` bytes. -/
def Obligations.MessageWordsAreLittleEndian : Prop :=
  ∀ (s : State) (e : Engine) (w off n : Nat), 8 * n ≤ w → off + n ≤ 2 ^ s.lenW →
    (memReadWord w s e off n).toNat = ∑ j ∈ Finset.range n, (memRead (s.msg e) (off + j)).toNat * 2 ^ (8 * j)

/-- An engine's step depends on no message byte but those from its offset up to `len_q` (R66, R254): with any message space
that agrees there it does the same. -/
def Obligations.UnreadBytesDoNotMatter : Prop :=
  ∀ (s t : State) (e : Engine) (m : Memory), s.SequencersOk → runEngine e s = .next t →
    (∀ k, (s.ctl e).off.toNat ≤ k → k < (s.ctl e).lenQ.toNat → memRead m k = memRead (s.msg e) k) →
    runEngine e (s.setMsg e m) = .next (t.setMsg e m)

/-- R61: no step of an engine, host transaction or reset changes a message space; only the platform's own change of a
byte, an event of the model's schedule (log 1), does, and that changes this byte alone. -/
def Obligations.OnlyThePlatformWritesMessages : Prop :=
  ∀ (s t : State) (e : Engine), s.MessagesOk → step s = .next t →
    ((∀ i rest, s.inputs = i :: rest → i.changesMessage e = false) → t.msg e = s.msg e) ∧
    (∀ off b rest, s.inputs = .messageByte e off b :: rest →
      memRead (t.msg e) off.toNat = b ∧ ∀ k, k ≠ off.toNat → memRead (t.msg e) k = memRead (s.msg e) k)

/-- Every step keeps every message space canonical and inside its space, from every state in which they are (log 8). -/
def Obligations.StepKeepsMessagesOk : Prop :=
  ∀ s t : State, s.MessagesOk → step s = .next t → t.MessagesOk

/-- Two canonical message spaces that hold the same bytes are the same data (log 8). -/
def Obligations.CanonicalMessagesAreEqual : Prop :=
  ∀ m m' : Memory, m.wf = true → m'.wf = true → (∀ k, memRead m k = memRead m' k) → m = m'

/-- R40: right after reset every engine is IDLE with SEED 0 and LEN 0, STATUS reads 0 and the `done` wires are low. The
phase is not DONE, so a DIGEST read is the UNSPECIFIED case of R205. Of the accumulators, `len_q` and `off`, UNSPECIFIED
there, nothing is said. -/
def Obligations.ResetState : Prop :=
  let s := State.reset
  s.h32.ctl.phase = .idle ∧ s.h32.ctl.seed = 0 ∧ s.h32.ctl.len = 0 ∧ s.doneWire .h32 = false ∧
  exec .h32RdStatus s = .next { s with answers := 0 :: s.answers } ∧
  s.x86.ctl.phase = .idle ∧ s.x86.ctl.seed = 0 ∧ s.x86.ctl.len = 0 ∧ s.doneWire .x86 = false ∧
  exec .x86RdStatus s = .next { s with answers := 0 :: s.answers } ∧
  s.x64.ctl.phase = .idle ∧ s.x64.ctl.seed = 0 ∧ s.x64.ctl.len = 0 ∧ s.doneWire .x64 = false ∧
  exec .x64RdStatus s = .next { s with answers := 0 :: s.answers }

/-- R250, R251: the reset event, at any time and in any phase, leaves every engine IDLE (not DONE) with SEED 0 and LEN 0,
STATUS reading 0 and the wires low; the message spaces and LEN_W are untouched. Of the accumulators nothing is said; that
they become free values is the model's form of UNSPECIFIED (log 5). -/
def Obligations.ResetEvent : Prop :=
  ∀ (s : State) (rest : List Input), s.inputs = .reset :: rest →
    ∃ t, step s = .next t ∧ t.inputs = rest ∧ t.lenW = s.lenW ∧ t.answers = s.answers ∧
      ∀ e : Engine, (t.ctl e).phase = .idle ∧ (t.ctl e).seed = 0 ∧ (t.ctl e).len = 0 ∧
        statusWord (t.ctl e).phase = 0 ∧ t.doneWire e = false ∧ t.msg e = s.msg e

/-- The state after reset meets both invariants that every step keeps (R28, log 8) and holds no event that would stop it. -/
def Obligations.ResetMeetsTheInvariants : Prop :=
  State.reset.SequencersOk ∧ State.reset.MessagesOk ∧ State.reset.admitted = true

/-- R28, which the spec derives by induction on steps, with R26 and R20: every step keeps every length within LEN_W bits
and every sequencer where R28 says it stands: in BLOCK the offset is a multiple of the block size with a full block left,
in TAIL at the last multiple, in FINAL and DONE at the end. LEN_W never changes (R41). -/
def Obligations.StepKeepsSequencersOk : Prop :=
  ∀ s t : State, s.SequencersOk → step s = .next t → t.SequencersOk ∧ t.lenW = s.lenW

/-- R220: nothing is ever raised: while the events to come are word-aligned accesses and existing message offsets, every
step takes a next state, of which the same holds. That other events are refused is the model's choice (logs 11 and 17). -/
def Obligations.AdmittedStepsGoOn : Prop :=
  ∀ s : State, s.admitted = true → ∃ t, step s = .next t ∧ t.admitted = true

/-- R30, R31, R42: SEED of an engine changes only in a host write to its SEED register or in reset; LEN only in a host write
to its LEN or LEN_HI register or in reset. -/
def Obligations.SeedAndLenChangeOnlyByWrites : Prop :=
  ∀ (s t : State) (e : Engine), step s = .next t →
    ((t.ctl e).seed ≠ (s.ctl e).seed →
      ∃ i rest, s.inputs = i :: rest ∧ (i.writesAt e 0x08 = true ∨ i.isReset = true)) ∧
    ((t.ctl e).len ≠ (s.ctl e).len →
      ∃ i rest, s.inputs = i :: rest ∧ (i.writesAt e 0x0C = true ∨ i.writesAt e 0x10 = true ∨ i.isReset = true))

/-- R71 (b), R205: an engine in DONE stays in DONE with the same accumulators through every step but an accepted START of it
and reset, whatever the host and the other engines do. -/
def Obligations.DigestStaysUntilStartOrReset : Prop :=
  ∀ (s t : State) (e : Engine), step s = .next t → (s.ctl e).phase = .done →
    (∀ i rest, s.inputs = i :: rest → i.starts e = false ∧ i.isReset = false) →
    (t.ctl e).phase = .done ∧
      (e = .h32 → t.h32.h1 = s.h32.h1) ∧ (e = .x86 → t.x86.acc = s.x86.acc) ∧ (e = .x64 → t.x64.acc = s.x64.acc)

/-- R42, which the spec derives from the START rules: an accepted START gives the same state whatever the accumulators,
`len_q`, `off` and phase held before it: nothing of an earlier run can reach a later digest. -/
def Obligations.StartForgetsTheEarlierRun : Prop :=
  ∀ (s : State) (D : Word32) (lenQ off : Word64) (p : Phase) (x : Bool), D.getLsbD 0 = true → busyBit p = false →
    (∀ h1 : Word32, busyBit s.h32.ctl.phase = false →
      let h : H32 :=
        { h1 := h1
          ctl := { s.h32.ctl with lenQ := lenQ, off := off, phase := p, disturbed := x } }
      exec (.h32Start D) { s with h32 := h } = exec (.h32Start D) s) ∧
    (∀ h1 h2 h3 h4 : Word32, busyBit s.x86.ctl.phase = false →
      let h : X86 :=
        { h1 := h1, h2 := h2, h3 := h3, h4 := h4
          ctl := { s.x86.ctl with lenQ := lenQ, off := off, phase := p, disturbed := x } }
      exec (.x86Start D) { s with x86 := h } = exec (.x86Start D) s) ∧
    (∀ h1 h2 : Word64, busyBit s.x64.ctl.phase = false →
      let h : X64 :=
        { h1 := h1, h2 := h2
          ctl := { s.x64.ctl with lenQ := lenQ, off := off, phase := p, disturbed := x } }
      exec (.x64Start D) { s with x64 := h } = exec (.x64Start D) s)

/-- R2: an engine's step changes neither another engine, nor a message space, nor a port register of its own, nor what the
host has read or has still to bring. -/
def Obligations.EngineTurnTouchesItsEngineOnly : Prop :=
  ∀ (s t : State) (e : Engine), runEngine e s = .next t →
    (e ≠ .h32 → t.h32 = s.h32) ∧ (e ≠ .x86 → t.x86 = s.x86) ∧ (e ≠ .x64 → t.x64 = s.x64) ∧
    (t.ctl e).seed = (s.ctl e).seed ∧ (t.ctl e).len = (s.ctl e).len ∧ (t.ctl e).lenQ = (s.ctl e).lenQ ∧
    t.lenW = s.lenW ∧ (∀ e', t.msg e' = s.msg e') ∧ t.answers = s.answers ∧ t.inputs = s.inputs ∧ t.turns = s.turns

/-- R72: steps of different engines may be taken in either order, with the same state as the result. -/
def Obligations.EngineTurnsCommute : Prop :=
  ∀ (s t u t' u' : State) (e e' : Engine), e ≠ e' →
    runEngine e s = .next t → runEngine e' t = .next u →
    runEngine e' s = .next t' → runEngine e t' = .next u' → u = u'

/-- R2, R37: a host transaction changes no engine but the one of the bank it addresses, and no message space. -/
def Obligations.PortAccessTouchesOneEngine : Prop :=
  ∀ (s t : State),
    (∀ T : BitVec 40, runInput (.hostWrite T) s = .next t →
      (T.extractLsb' 38 2 ≠ 0 → t.h32 = s.h32) ∧ (T.extractLsb' 38 2 ≠ 1 → t.x86 = s.x86) ∧
      (T.extractLsb' 38 2 ≠ 2 → t.x64 = s.x64) ∧ (∀ e, t.msg e = s.msg e) ∧ t.answers = s.answers) ∧
    (∀ A : BitVec 8, runInput (.hostRead A) s = .next t →
      (∀ e, t.msg e = s.msg e ∧ { t.ctl e with draws := 0 } = { s.ctl e with draws := 0 }) ∧
      t.h32.h1 = s.h32.h1 ∧ t.x86.acc = s.x86.acc ∧ t.x64.acc = s.x64.acc ∧ ∃ v, t.answers = v :: s.answers)

/-- R27, R230, R263: where no event is left, some busy engine takes its step, which one being a free choice (log 10); where
no engine is busy nothing changes. -/
def Obligations.ExhaustedScheduleRunsABusyEngine : Prop :=
  ∀ s : State, s.inputs = [] →
    ((∀ e, busyBit (s.ctl e).phase = false) → step s = .next s) ∧
    ((∃ e, busyBit (s.ctl e).phase = true) →
      ∃ e, busyBit (s.ctl e).phase = true ∧ step s = runEngine e { s with turns := s.turns + 1 })

/-- R263, R4: from every state in which R28 holds and no event is left, finitely many steps bring every engine to IDLE or
DONE, whatever the free choices of the engine that moves are (log 10, the model's choice); an engine that was busy or DONE
is then DONE. -/
def Obligations.BusyEnginesFinish : Prop :=
  ∀ s : State, s.SequencersOk → s.inputs = [] →
    ∃ n t, Host.Core.run core n s = .next t ∧
      ∀ e, ((s.ctl e).phase = .idle → (t.ctl e).phase = .idle) ∧ ((s.ctl e).phase ≠ .idle → (t.ctl e).phase = .done)

/-- R262, which the spec derives from R27: after an accepted START with length `len` the engine is busy for exactly
`floor(len / BS) + 2` steps of its own and then DONE, however other events come between them, whatever the message, the
seed and any change of the message. -/
def Obligations.RunTakesItsStepsExactly : Prop :=
  ∀ (s : State) (e : Engine) (T : BitVec 40) (events : List Input),
    s.SequencersOk → s.admitted = true → busyBit (s.ctl e).phase = false →
    s.inputs = .hostWrite T :: events → (Input.hostWrite T).starts e = true →
    (∀ i ∈ events, i.starts e = false ∧ i.isReset = false) →
    ∃ t, Host.Core.run core (events.length + 1) s = .next t ∧
      (if events.count (.engineTurn e) < stepsOfRun e (s.ctl e).len.toNat then busyBit (t.ctl e).phase = true
       else (t.ctl e).phase = .done)

/-- R147's last sentence, which the spec derives by unfolding R140 to R144: a run of H32 reaches DONE and DIGEST0 reads
`hash32` of the message and the seed, in every interleaving with other events that leave the run alone. -/
def Obligations.H32RunComputesHash32 : Prop :=
  ∀ (s : State) (T : BitVec 40) (events : List Input),
    s.SequencersOk → s.admitted = true → busyBit s.h32.ctl.phase = false →
    s.inputs = .hostWrite T :: events → (Input.hostWrite T).starts .h32 = true →
    (∀ i ∈ events, i.leavesRun .h32 = true) →
    stepsOfRun .h32 s.h32.ctl.len.toNat ≤ events.count (.engineTurn .h32) →
    ∃ t, Host.Core.run core (events.length + 1) s = .next t ∧ t.h32.ctl.phase = .done ∧
      exec .h32RdDigest0 t = .next
        { t with answers := hash32 (s.message .h32 s.h32.ctl.len.toNat) s.h32.ctl.seed :: t.answers }

/-- R167's sentence on runs, which the spec derives by unfolding R160 to R164: a run of X86 reaches DONE and DIGEST0 to
DIGEST3 read `hash128_x86` of the message and the seed, in every interleaving with other events that leave the run alone.
-/
def Obligations.X86RunComputesHash128X86 : Prop :=
  ∀ (s : State) (T : BitVec 40) (events : List Input),
    s.SequencersOk → s.admitted = true → busyBit s.x86.ctl.phase = false →
    s.inputs = .hostWrite T :: events → (Input.hostWrite T).starts .x86 = true →
    (∀ i ∈ events, i.leavesRun .x86 = true) →
    stepsOfRun .x86 s.x86.ctl.len.toNat ≤ events.count (.engineTurn .x86) →
    ∃ t, Host.Core.run core (events.length + 1) s = .next t ∧ t.x86.ctl.phase = .done ∧
      let d := hash128x86 (s.message .x86 s.x86.ctl.len.toNat) s.x86.ctl.seed
      exec .x86RdDigest0 t = .next { t with answers := d.h1 :: t.answers } ∧
      exec .x86RdDigest1 t = .next { t with answers := d.h2 :: t.answers } ∧
      exec .x86RdDigest2 t = .next { t with answers := d.h3 :: t.answers } ∧
      exec .x86RdDigest3 t = .next { t with answers := d.h4 :: t.answers }

/-- R187's sentence on runs, which the spec derives by unfolding R180 to R184: a run of X64 reaches DONE and DIGEST1 ∥
DIGEST0 and DIGEST3 ∥ DIGEST2 are `hash128_x64` of the message and the seed, in every interleaving with other events that
leave the run alone. -/
def Obligations.X64RunComputesHash128X64 : Prop :=
  ∀ (s : State) (T : BitVec 40) (events : List Input),
    s.SequencersOk → s.admitted = true → busyBit s.x64.ctl.phase = false →
    s.inputs = .hostWrite T :: events → (Input.hostWrite T).starts .x64 = true →
    (∀ i ∈ events, i.leavesRun .x64 = true) →
    stepsOfRun .x64 s.x64.ctl.len.toNat ≤ events.count (.engineTurn .x64) →
    ∃ t, Host.Core.run core (events.length + 1) s = .next t ∧ t.x64.ctl.phase = .done ∧
      let d := hash128x64 (s.message .x64 s.x64.ctl.len.toNat) s.x64.ctl.seed
      ∃ d0 d1 d2 d3 : Word32, d1 ++ d0 = d.h1 ∧ d3 ++ d2 = d.h2 ∧
        exec .x64RdDigest0 t = .next { t with answers := d0 :: t.answers } ∧
        exec .x64RdDigest1 t = .next { t with answers := d1 :: t.answers } ∧
        exec .x64RdDigest2 t = .next { t with answers := d2 :: t.answers } ∧
        exec .x64RdDigest3 t = .next { t with answers := d3 :: t.answers }
end

