-- ==== Sys2Proof/Laws/State.lean ====
section
/-! SUPPORT. What each named update of State leaves of each field: one lemma per field per update. -/

namespace Sys2Proof.Machine

/-! ### A host read's answer -/

@[simp] theorem answer_lenW (s : State) (v : Word32) : (s.answer v).lenW = s.lenW := rfl
@[simp] theorem answer_h32 (s : State) (v : Word32) : (s.answer v).h32 = s.h32 := rfl
@[simp] theorem answer_x86 (s : State) (v : Word32) : (s.answer v).x86 = s.x86 := rfl
@[simp] theorem answer_x64 (s : State) (v : Word32) : (s.answer v).x64 = s.x64 := rfl
@[simp] theorem answer_msgH32 (s : State) (v : Word32) : (s.answer v).msgH32 = s.msgH32 := rfl
@[simp] theorem answer_msgX86 (s : State) (v : Word32) : (s.answer v).msgX86 = s.msgX86 := rfl
@[simp] theorem answer_msgX64 (s : State) (v : Word32) : (s.answer v).msgX64 = s.msgX64 := rfl
@[simp] theorem answer_answers (s : State) (v : Word32) : (s.answer v).answers = v :: s.answers := rfl
@[simp] theorem answer_inputs (s : State) (v : Word32) : (s.answer v).inputs = s.inputs := rfl
@[simp] theorem answer_turns (s : State) (v : Word32) : (s.answer v).turns = s.turns := rfl
@[simp] theorem answer_ctl (s : State) (v : Word32) (e : Engine) : (s.answer v).ctl e = s.ctl e := by cases e <;> rfl
@[simp] theorem answer_msg (s : State) (v : Word32) (e : Engine) : (s.answer v).msg e = s.msg e := by cases e <;> rfl

/-! ### The control part of an engine -/

@[simp] theorem setCtl_lenW (s : State) (e : Engine) (c : Ctl) : (s.setCtl e c).lenW = s.lenW := by cases e <;> rfl
@[simp] theorem setCtl_msgH32 (s : State) (e : Engine) (c : Ctl) : (s.setCtl e c).msgH32 = s.msgH32 := by cases e <;> rfl
@[simp] theorem setCtl_msgX86 (s : State) (e : Engine) (c : Ctl) : (s.setCtl e c).msgX86 = s.msgX86 := by cases e <;> rfl
@[simp] theorem setCtl_msgX64 (s : State) (e : Engine) (c : Ctl) : (s.setCtl e c).msgX64 = s.msgX64 := by cases e <;> rfl
@[simp] theorem setCtl_answers (s : State) (e : Engine) (c : Ctl) : (s.setCtl e c).answers = s.answers := by cases e <;> rfl
@[simp] theorem setCtl_inputs (s : State) (e : Engine) (c : Ctl) : (s.setCtl e c).inputs = s.inputs := by cases e <;> rfl
@[simp] theorem setCtl_turns (s : State) (e : Engine) (c : Ctl) : (s.setCtl e c).turns = s.turns := by cases e <;> rfl
@[simp] theorem setCtl_msg (s : State) (e e' : Engine) (c : Ctl) : (s.setCtl e c).msg e' = s.msg e' := by
  cases e <;> cases e' <;> rfl
@[simp] theorem setCtl_ctl_same (s : State) (e : Engine) (c : Ctl) : (s.setCtl e c).ctl e = c := by cases e <;> rfl
theorem setCtl_ctl_other (s : State) {e e' : Engine} (c : Ctl) (h : e' ≠ e) : (s.setCtl e c).ctl e' = s.ctl e' := by
  cases e <;> cases e' <;> first | rfl | exact absurd rfl h
@[simp] theorem setCtl_h32_h1 (s : State) (e : Engine) (c : Ctl) : (s.setCtl e c).h32.h1 = s.h32.h1 := by cases e <;> rfl
@[simp] theorem setCtl_x86_acc (s : State) (e : Engine) (c : Ctl) : (s.setCtl e c).x86.acc = s.x86.acc := by cases e <;> rfl
@[simp] theorem setCtl_x64_acc (s : State) (e : Engine) (c : Ctl) : (s.setCtl e c).x64.acc = s.x64.acc := by cases e <;> rfl

/-! ### A message space -/

@[simp] theorem setMsg_lenW (s : State) (e : Engine) (m : Memory) : (s.setMsg e m).lenW = s.lenW := by cases e <;> rfl
@[simp] theorem setMsg_h32 (s : State) (e : Engine) (m : Memory) : (s.setMsg e m).h32 = s.h32 := by cases e <;> rfl
@[simp] theorem setMsg_x86 (s : State) (e : Engine) (m : Memory) : (s.setMsg e m).x86 = s.x86 := by cases e <;> rfl
@[simp] theorem setMsg_x64 (s : State) (e : Engine) (m : Memory) : (s.setMsg e m).x64 = s.x64 := by cases e <;> rfl
@[simp] theorem setMsg_answers (s : State) (e : Engine) (m : Memory) : (s.setMsg e m).answers = s.answers := by cases e <;> rfl
@[simp] theorem setMsg_inputs (s : State) (e : Engine) (m : Memory) : (s.setMsg e m).inputs = s.inputs := by cases e <;> rfl
@[simp] theorem setMsg_turns (s : State) (e : Engine) (m : Memory) : (s.setMsg e m).turns = s.turns := by cases e <;> rfl
@[simp] theorem setMsg_ctl (s : State) (e e' : Engine) (m : Memory) : (s.setMsg e m).ctl e' = s.ctl e' := by
  cases e <;> cases e' <;> rfl
@[simp] theorem setMsg_msg_same (s : State) (e : Engine) (m : Memory) : (s.setMsg e m).msg e = m := by cases e <;> rfl
theorem setMsg_msg_other (s : State) {e e' : Engine} (m : Memory) (h : e' ≠ e) : (s.setMsg e m).msg e' = s.msg e' := by
  cases e <;> cases e' <;> first | rfl | exact absurd rfl h

/-! ### The reset event -/

@[simp] theorem resetEvent_lenW (s : State) : (resetEvent s).lenW = s.lenW := rfl
@[simp] theorem resetEvent_msg (s : State) (e : Engine) : (resetEvent s).msg e = s.msg e := by cases e <;> rfl
@[simp] theorem resetEvent_answers (s : State) : (resetEvent s).answers = s.answers := rfl
@[simp] theorem resetEvent_inputs (s : State) : (resetEvent s).inputs = s.inputs := rfl
@[simp] theorem resetEvent_turns (s : State) : (resetEvent s).turns = s.turns := rfl
@[simp] theorem resetEvent_ctl (s : State) (e : Engine) : (resetEvent s).ctl e = (s.ctl e).afterReset e s.lenW := by
  cases e <;> rfl

end Sys2Proof.Machine
end

