-- ==== Sys2Proof/Laws/Memory.lean ====
section
/-! SUPPORT. Message spaces: a read after a write, and every write keeps the canonical form. -/

namespace Sys2Proof.Machine

theorem memRead_memWrite_same (m : Memory) (a : Nat) (b : Byte) (hm : Memory.wfFrom 0 m = true) :
    memRead (memWrite m a b) a = b := by
  suffices h : ∀ lo, Memory.wfFrom lo m = true → memRead (memWrite m a b) a = b from h 0 hm
  have gone : ∀ (m : Memory) (lo : Nat), a < lo → Memory.wfFrom lo m = true → memRead m a = unlistedByte := by
    intro m
    induction m with
    | nil => intros; rfl
    | cons cell m ih =>
      obtain ⟨k, c⟩ := cell
      intro lo hlo h
      simp only [Memory.wfFrom, Bool.and_eq_true, decide_eq_true_eq] at h
      have hk : k ≠ a := by omega
      simp only [memRead, hk, if_false]
      exact ih (k + 1) (by omega) h.2
  clear hm
  induction m with
  | nil =>
    intro lo _
    by_cases hb : b = unlistedByte <;> simp [memWrite, memRead, hb]
  | cons cell m ih =>
    obtain ⟨k, c⟩ := cell
    intro lo h
    simp only [Memory.wfFrom, Bool.and_eq_true, decide_eq_true_eq] at h
    by_cases h1 : a < k
    · by_cases hb : b = unlistedByte
      · have hk : k ≠ a := by omega
        simp [memWrite, memRead, h1, hb, hk, gone m (k + 1) (by omega) h.2]
      · simp [memWrite, memRead, h1, hb]
    · by_cases h2 : a = k
      · subst h2
        by_cases hb : b = unlistedByte
        · simp [memWrite, hb, gone m (a + 1) (by omega) h.2]
        · simp [memWrite, memRead, hb]
      · have hk : k ≠ a := by omega
        simp [memWrite, memRead, h1, h2, hk, ih (k + 1) h.2]

theorem memRead_memWrite_other (m : Memory) {a a' : Nat} (b : Byte) (h : a' ≠ a) :
    memRead (memWrite m a b) a' = memRead m a' := by
  induction m with
  | nil =>
    have h' : a ≠ a' := h.symm
    by_cases hb : b = unlistedByte <;> simp [memWrite, memRead, hb, h']
  | cons cell m ih =>
    obtain ⟨k, c⟩ := cell
    have h' : a ≠ a' := h.symm
    by_cases h1 : a < k
    · by_cases hb : b = unlistedByte <;> simp [memWrite, memRead, h1, hb, h']
    · by_cases h2 : a = k
      · subst h2
        by_cases hb : b = unlistedByte <;> simp [memWrite, memRead, hb, h']
      · have step : memWrite ((k, c) :: m) a b = (k, c) :: memWrite m a b := by simp [memWrite, h1, h2]
        simp [step, memRead, ih]

theorem memWrite_wfFrom (m : Memory) (lo a : Nat) (b : Byte) (hlo : lo ≤ a) (h : Memory.wfFrom lo m = true) :
    Memory.wfFrom lo (memWrite m a b) = true := by
  induction m generalizing lo with
  | nil => by_cases hb : b = unlistedByte <;> simp [memWrite, Memory.wfFrom, hb, hlo]
  | cons cell m ih =>
    obtain ⟨k, c⟩ := cell
    simp only [Memory.wfFrom, Bool.and_eq_true, decide_eq_true_eq] at h
    obtain ⟨⟨h0, hc⟩, hm⟩ := h
    by_cases h1 : a < k
    · by_cases hb : b = unlistedByte
      · simp [memWrite, Memory.wfFrom, h1, hb, h0, hc, hm]
      · have : a + 1 ≤ k := h1
        simp [memWrite, Memory.wfFrom, h1, hb, hc, hm, hlo, this]
    · by_cases h2 : a = k
      · subst h2
        by_cases hb : b = unlistedByte
        · simp only [memWrite, Nat.lt_irrefl, if_false, if_true, hb]
          clear ih
          have up : ∀ (m : Memory) (lo lo' : Nat), lo' ≤ lo → Memory.wfFrom lo m = true → Memory.wfFrom lo' m = true := by
            intro m lo lo' hle hw
            cases m with
            | nil => rfl
            | cons cell m =>
              simp only [Memory.wfFrom, Bool.and_eq_true, decide_eq_true_eq] at hw ⊢
              exact ⟨⟨by omega, hw.1.2⟩, hw.2⟩
          exact up m (a + 1) lo (by omega) hm
        · simp [memWrite, Memory.wfFrom, hb, hm, hlo]
      · have := ih (k + 1) (by omega) hm
        simp [memWrite, Memory.wfFrom, h1, h2, h0, hc, this]

/-- Every write of a byte keeps the canonical form. -/
theorem memWrite_wf (m : Memory) (a : Nat) (b : Byte) (h : m.wf = true) : (memWrite m a b).wf = true :=
  memWrite_wfFrom m 0 a b (Nat.zero_le a) h

theorem mem_memWrite (m : Memory) (a : Nat) (b : Byte) (cell : Host.Cell) (h : cell ∈ memWrite m a b) :
    cell ∈ m ∨ cell = (a, b) := by
  induction m with
  | nil =>
    simp only [memWrite] at h
    split at h
    · cases h
    · exact .inr (List.mem_singleton.mp h)
  | cons head m ih =>
    obtain ⟨k, c⟩ := head
    simp only [memWrite] at h
    split at h
    · split at h
      · exact .inl h
      · exact (List.mem_cons.mp h).symm.imp id id
    · split at h
      · rename_i hk
        split at h
        · exact .inl (List.mem_cons_of_mem _ h)
        · exact (List.mem_cons.mp h).symm.imp (List.mem_cons_of_mem _) fun he => by rw [he, hk]
      · rcases List.mem_cons.mp h with he | he
        · exact .inl (by rw [he]; exact List.mem_cons_self)
        · exact (ih he).imp (List.mem_cons_of_mem _) id

/-- A platform's write inside the space keeps a message space canonical and inside its space. -/
theorem memWrite_inSpace (m : Memory) (lenW a : Nat) (b : Byte) (ha : a < 2 ^ lenW) (h : m.InSpace lenW) :
    (memWrite m a b).InSpace lenW :=
  ⟨memWrite_wf m a b h.1, fun cell hc => (mem_memWrite m a b cell hc).elim (h.2 cell) fun he => by rw [he]; exact ha⟩

theorem reset_memory_wf :
    State.reset.msgH32.wf = true ∧ State.reset.msgX86.wf = true ∧ State.reset.msgX64.wf = true := by decide

end Sys2Proof.Machine
end

