-- ==== Sys2Proof/Laws/Operands.lean ====
section
/-! SUPPORT. Lengths of `LEN_W` bits, message bytes and little-endian words: what each operand function answers. -/

namespace Sys2Proof.Machine

/-! ### Lengths -/

theorem lowMask_getLsbD (n i : Nat) (hn : n ≤ 64) : (lowMask n).getLsbD i = decide (i < n) := by
  have hlt : 2 ^ n - 1 < 2 ^ 64 := by
    have := Nat.pow_le_pow_right (show 0 < 2 by decide) hn
    have := Nat.two_pow_pos n
    omega
  simp only [lowMask, BitVec.getLsbD, BitVec.toNat_ofNat, Nat.mod_eq_of_lt hlt, Nat.testBit_two_pow_sub_one]

theorem truncTo_getLsbD (n i : Nat) (v : Word64) (hn : n ≤ 64) :
    (truncTo n v).getLsbD i = (decide (i < n) && v.getLsbD i) := by
  simp [truncTo, lowMask_getLsbD _ _ hn, Bool.and_comm]

theorem truncTo_toNat (n : Nat) (v : Word64) (hn : n ≤ 64) : (truncTo n v).toNat = v.toNat % 2 ^ n := by
  have hlt : 2 ^ n - 1 < 2 ^ 64 := by
    have := Nat.pow_le_pow_right (show 0 < 2 by decide) hn
    have := Nat.two_pow_pos n
    omega
  simp only [truncTo, lowMask, BitVec.toNat_and, BitVec.toNat_ofNat, Nat.mod_eq_of_lt hlt]
  exact Nat.and_two_pow_sub_one_eq_mod _ _

theorem truncTo_lt (n : Nat) (v : Word64) (hn : n ≤ 64) : (truncTo n v).toNat < 2 ^ n := by
  rw [truncTo_toNat n v hn]
  exact Nat.mod_lt _ (Nat.two_pow_pos n)

theorem getLsbD_of_lt_two_pow {v : Word64} {n i : Nat} (h : v.toNat < 2 ^ n) (hi : n ≤ i) : v.getLsbD i = false :=
  Nat.testBit_lt_two_pow (Nat.lt_of_lt_of_le h (Nat.pow_le_pow_right (by decide) hi))

theorem lt_two_pow_of_getLsbD {v : Word64} {n : Nat} (h : ∀ i, n ≤ i → v.getLsbD i = false) : v.toNat < 2 ^ n :=
  Nat.lt_pow_two_of_testBit _ h

theorem lenWithLow_getLsbD (lenW i : Nat) (len : Word64) (d : Word32) (hi : i < 64) :
    (lenWithLow lenW len d).getLsbD i = if i < min lenW 32 then d.getLsbD i else len.getLsbD i := by
  have hm : min lenW 32 ≤ 64 := by omega
  simp only [lenWithLow, BitVec.getLsbD_or, BitVec.getLsbD_and, BitVec.getLsbD_not, truncTo_getLsbD _ _ _ hm,
    lowMask_getLsbD _ _ hm, BitVec.getLsbD_setWidth, hi, decide_true, Bool.true_and]
  by_cases h : i < min lenW 32 <;> simp [h]

theorem lenWithLow_lt (lenW : Nat) (len : Word64) (d : Word32) (h : len.toNat < 2 ^ lenW) :
    (lenWithLow lenW len d).toNat < 2 ^ lenW := by
  refine lt_two_pow_of_getLsbD fun i hi => ?_
  by_cases h64 : i < 64
  · have : ¬ i < min lenW 32 := by omega
    rw [lenWithLow_getLsbD lenW i len d h64, if_neg this]
    exact getLsbD_of_lt_two_pow h hi
  · exact BitVec.getLsbD_of_ge _ _ (by omega)

theorem lenWithHigh_lt (lenW : Nat) (len : Word64) (d : Word32) (hw : lenW ≤ 64) (h : len.toNat < 2 ^ lenW) :
    (lenWithHigh lenW len d).toNat < 2 ^ lenW := by
  unfold lenWithHigh
  split
  · refine lt_two_pow_of_getLsbD fun i hi => ?_
    have h1 : ¬ i < lenW := by omega
    have h2 : ¬ i < 32 := by omega
    simp [truncTo_getLsbD _ _ _ hw, truncTo_getLsbD 32 _ _ (by decide), h1, h2]
  · exact h

/-! ### Message bytes and words -/

@[simp] theorem msgBytes_zero (s : State) (e : Engine) (off : Nat) : msgBytes s e off 0 = [] := rfl

@[simp] theorem msgBytes_succ (s : State) (e : Engine) (off n : Nat) :
    msgBytes s e off (n + 1) = msgByte s e off :: msgBytes s e (off + 1) n := rfl

theorem msgBytes_length (s : State) (e : Engine) (off n : Nat) : (msgBytes s e off n).length = n := by
  induction n generalizing off with
  | zero => rfl
  | succ n ih => simp [ih]

@[simp] theorem leWord_nil (w : Nat) : leWord w [] = 0 := rfl

theorem leWord_cons (w : Nat) (b : Byte) (bs : List Byte) :
    leWord w (b :: bs) = b.setWidth w ||| (leWord w bs <<< 8) := rfl

/-- Inside the space the offset of a byte request is the offset itself. -/
theorem msgByte_of_lt (s : State) (e : Engine) (off : Nat) (h : off < 2 ^ s.lenW) :
    msgByte s e off = memRead (s.msg e) off := by
  rw [msgByte, Nat.mod_eq_of_lt h]

/-- The bytes a request sequence answers depend on the message space alone. -/
theorem msgBytes_congr {s t : State} (e : Engine) (off n : Nat) (hw : s.lenW = t.lenW)
    (h : ∀ k, off ≤ k → k < off + n → memRead (s.msg e) (k % 2 ^ s.lenW) = memRead (t.msg e) (k % 2 ^ s.lenW)) :
    msgBytes s e off n = msgBytes t e off n := by
  induction n generalizing off with
  | zero => rfl
  | succ n ih =>
    simp only [msgBytes_succ]
    congr 1
    · rw [msgByte, msgByte, ← hw]; exact h off (by omega) (by omega)
    · exact ih (off + 1) fun k hk hk' => h k (by omega) (by omega)

end Sys2Proof.Machine
end

