-- ==== Sys2Proof/Laws/Step.lean ====
section
/-! SUPPORT. What the decoder, the shared operations and a step can do, said once. -/

namespace Sys2Proof.Machine

/-! ### The engine's turn -/

theorem runEngine_of_idle {e : Engine} {s : State} (h : (s.ctl e).phase = .idle) : runEngine e s = .next s := by
  cases e <;> simp [runEngine, h] <;> rfl

theorem runEngine_of_done {e : Engine} {s : State} (h : (s.ctl e).phase = .done) : runEngine e s = .next s := by
  cases e <;> simp [runEngine, h] <;> rfl

theorem runEngine_h32_block {s : State} (h : s.h32.ctl.phase = .block) : runEngine .h32 s = execH32Block s := by
  simp [runEngine, State.ctl, h]; rfl

theorem runEngine_h32_tail {s : State} (h : s.h32.ctl.phase = .tail) : runEngine .h32 s = execH32Tail s := by
  simp [runEngine, State.ctl, h]; rfl

theorem runEngine_h32_final {s : State} (h : s.h32.ctl.phase = .final) : runEngine .h32 s = execH32Final s := by
  simp [runEngine, State.ctl, h]; rfl

theorem runEngine_x86_block {s : State} (h : s.x86.ctl.phase = .block) : runEngine .x86 s = execX86Block s := by
  simp [runEngine, State.ctl, h]; rfl

theorem runEngine_x86_tail {s : State} (h : s.x86.ctl.phase = .tail) : runEngine .x86 s = execX86Tail s := by
  simp [runEngine, State.ctl, h]; rfl

theorem runEngine_x86_final {s : State} (h : s.x86.ctl.phase = .final) : runEngine .x86 s = execX86Final s := by
  simp [runEngine, State.ctl, h]; rfl

theorem runEngine_x64_block {s : State} (h : s.x64.ctl.phase = .block) : runEngine .x64 s = execX64Block s := by
  simp [runEngine, State.ctl, h]; rfl

theorem runEngine_x64_tail {s : State} (h : s.x64.ctl.phase = .tail) : runEngine .x64 s = execX64Tail s := by
  simp [runEngine, State.ctl, h]; rfl

theorem runEngine_x64_final {s : State} (h : s.x64.ctl.phase = .final) : runEngine .x64 s = execX64Final s := by
  simp [runEngine, State.ctl, h]; rfl

/-! ### The decoder on a host transaction, by address and data -/

theorem append_getLsbD (A : BitVec 8) (D : Word32) (i : Nat) :
    (A ++ D : BitVec 40).getLsbD i = if i < 32 then D.getLsbD i else A.getLsbD (i - 32) :=
  BitVec.getLsbD_append (x := A) (y := D)

theorem extract_address (A : BitVec 8) (D : Word32) : (A ++ D : BitVec 40).extractLsb' 32 8 = A := by
  refine BitVec.eq_of_getLsbD_eq fun i hi => ?_
  rw [BitVec.getLsbD_extractLsb', append_getLsbD]
  simp [hi]

theorem extract_data (A : BitVec 8) (D : Word32) : (A ++ D : BitVec 40).extractLsb' 0 32 = D := by
  refine BitVec.eq_of_getLsbD_eq fun i hi => ?_
  rw [BitVec.getLsbD_extractLsb', append_getLsbD]
  simp [hi]

/-- A host write is its address with its data after it (R91). -/
theorem write_eq_append (T : BitVec 40) : T = (T.extractLsb' 32 8 ++ T.extractLsb' 0 32 : BitVec 40) := by
  refine BitVec.eq_of_getLsbD_eq fun i hi => ?_
  rw [append_getLsbD, BitVec.getLsbD_extractLsb', BitVec.getLsbD_extractLsb']
  by_cases h : i < 32
  · simp [h]
  · simp [h, show i - 32 < 8 by omega, show 32 + (i - 32) = i by omega]

theorem decode_write (A : BitVec 8) (D : Word32) : decode (.write (A ++ D)) = decodeWrite A D := by
  simp only [decode, extract_address, extract_data]

/-! ### The choice of the engine that moves -/

theorem mem_busyEngines (s : State) (e : Engine) : e ∈ busyEngines s ↔ busyBit (s.ctl e).phase = true := by
  cases e <;> simp [busyEngines]

theorem nextEngine_none (s : State) (h : nextEngine s = none) (e : Engine) : busyBit (s.ctl e).phase = false := by
  have hb : busyEngines s = [] := by
    unfold nextEngine at h
    split at h
    · assumption
    · cases h
    · cases h
  have := mem_busyEngines s e
  rw [hb] at this
  simpa using this

/-- The engine that moves is a busy one. -/
theorem nextEngine_busy (s : State) (e : Engine) (h : nextEngine s = some e) : busyBit (s.ctl e).phase = true := by
  rw [← mem_busyEngines]
  unfold nextEngine at h
  split at h
  · cases h
  · rename_i e' hb
    injection h with h
    rw [hb, h]
    exact List.mem_singleton.mpr rfl
  · rename_i e' es _ hb
    injection h with h
    rw [hb, ← h]
    have hlt : Config.choose s.turns % (es.length + 1) < (e' :: es).length :=
      Nat.mod_lt _ (Nat.succ_pos _)
    rw [List.getD_eq_getElem _ _ hlt]
    exact List.getElem_mem hlt

/-! ### The step -/

theorem step_cons (s : State) (i : Input) (rest : List Input) (h : s.inputs = i :: rest) :
    step s = runInput i { s with inputs := rest } := by
  simp only [step, h]

theorem step_nil_some (s : State) (e : Engine) (h : s.inputs = []) (hn : nextEngine s = some e) :
    step s = runEngine e { s with turns := s.turns + 1 } := by
  unfold step
  split
  · rename_i hi
    rw [h] at hi
    cases hi
  · rw [hn]

theorem step_nil_none (s : State) (h : s.inputs = []) (hn : nextEngine s = none) : step s = .next s := by
  unfold step
  split
  · rename_i hi
    rw [h] at hi
    cases hi
  · rw [hn]

/-- Everything a step that goes on can have done: it ran the oldest event, or a busy engine's operation, or nothing. -/
theorem step_cases {s t : State} (h : step s = .next t) :
    (∃ i rest, s.inputs = i :: rest ∧ runInput i { s with inputs := rest } = .next t)
      ∨ (s.inputs = [] ∧ ∃ e, busyBit (s.ctl e).phase = true
          ∧ runEngine e { s with turns := s.turns + 1 } = .next t)
      ∨ (s.inputs = [] ∧ (∀ e, busyBit (s.ctl e).phase = false) ∧ t = s) := by
  cases hi : s.inputs with
  | cons i rest =>
    refine .inl ⟨i, rest, rfl, ?_⟩
    rwa [step_cons s i rest hi] at h
  | nil =>
    cases hn : nextEngine s with
    | none =>
      rw [step_nil_none s hi hn] at h
      injection h with h
      exact .inr (.inr ⟨rfl, nextEngine_none s hn, h.symm⟩)
    | some e =>
      rw [step_nil_some s e hi hn, hi] at h
      exact .inr (.inl ⟨rfl, e, nextEngine_busy s e hn, h⟩)

/-- Every instruction takes a next state (R220). -/
theorem exec_next (i : Instr) (s : State) : ∃ t, exec i s = .next t := by
  cases i <;>
    simp only [exec, execH32Start, execX86Start, execX64Start, execH32Final, execX86Final, execX64Final] <;>
    first
    | exact ⟨_, rfl⟩
    | (split <;> exact ⟨_, rfl⟩)

/-- The selector of an engine in a phase names no step or an instruction (R94). -/
theorem decode_selector (e : Engine) (p : Phase) :
    decode (.select (selector e p)) = .noStep ∨ ∃ i, decode (.select (selector e p)) = .instr i := by
  cases e <;> cases p <;> first | exact .inl rfl | exact .inr ⟨_, rfl⟩

/-- An engine's turn takes a next state (R220, R263). -/
theorem runEngine_next (e : Engine) (s : State) : ∃ t, runEngine e s = .next t := by
  unfold runEngine
  rcases decode_selector e (s.ctl e).phase with h | ⟨i, h⟩
  · rw [h]; exact ⟨s, rfl⟩
  · rw [h]; exact exec_next i s

end Sys2Proof.Machine
end

