-- ==== Sys2Proof/Laws/Effects.lean ====
section
/-! SUPPORT. Inversion: everything one event, and one engine's turn, can do to the state. -/

namespace Sys2Proof.Machine

/-! ### The decoder's answers on host transactions -/

theorem address_of_fields {A : BitVec 8} {b o : Nat} (hb : (A.extractLsb' 6 2).toNat = b)
    (ho : (A.extractLsb' 0 6).toNat = o) : A = BitVec.ofNat 8 (64 * b + o) := by
  apply BitVec.eq_of_toNat_eq
  simp only [BitVec.extractLsb'_toNat, Nat.shiftRight_eq_div_pow] at hb ho
  have hA := A.isLt
  simp only [BitVec.toNat_ofNat]
  omega

/-- Everything a host write can do to the state. -/
inductive WriteEffect (s : State) (A : BitVec 8) (D : Word32) : State → Prop
  /-- A word that matches no row, or a START of a busy engine. -/
  | ignored : WriteEffect s A D s
  | startH32 (ha : A = bank .h32) (hd : D.getLsbD 0 = true) (hb : busyBit s.h32.ctl.phase = false) :
      WriteEffect s A D { s with h32 := { ctl := s.h32.ctl.start .h32, h1 := s.h32.ctl.seed } }
  | startX86 (ha : A = bank .x86) (hd : D.getLsbD 0 = true) (hb : busyBit s.x86.ctl.phase = false) :
      WriteEffect s A D
        { s with
          x86 :=
            { ctl := s.x86.ctl.start .x86, h1 := s.x86.ctl.seed, h2 := s.x86.ctl.seed, h3 := s.x86.ctl.seed,
              h4 := s.x86.ctl.seed } }
  | startX64 (ha : A = bank .x64) (hd : D.getLsbD 0 = true) (hb : busyBit s.x64.ctl.phase = false) :
      WriteEffect s A D
        { s with
          x64 :=
            { ctl := s.x64.ctl.start .x64, h1 := s.x64.ctl.seed.setWidth 64, h2 := s.x64.ctl.seed.setWidth 64 } }
  | seed (e : Engine) (ha : A = bank e + 0x08) : WriteEffect s A D (writeSeed e D s)
  | len (e : Engine) (ha : A = bank e + 0x0C) : WriteEffect s A D (writeLen e D s)
  | lenHi (e : Engine) (ha : A = bank e + 0x10) : WriteEffect s A D (writeLenHi e D s)

theorem execH32Start_effect {s t : State} {A : BitVec 8} {D : Word32} (ha : A = bank .h32)
    (h : execH32Start D s = .next t) : WriteEffect s A D t := by
  unfold execH32Start at h
  split at h
  · rename_i hc
    simp only [Bool.and_eq_true, Bool.not_eq_true'] at hc
    cases h
    exact .startH32 ha hc.1 hc.2
  · cases h
    exact .ignored

theorem execX86Start_effect {s t : State} {A : BitVec 8} {D : Word32} (ha : A = bank .x86)
    (h : execX86Start D s = .next t) : WriteEffect s A D t := by
  unfold execX86Start at h
  dsimp only at h
  split at h
  · rename_i hc
    simp only [Bool.and_eq_true, Bool.not_eq_true'] at hc
    cases h
    exact .startX86 ha hc.1 hc.2
  · cases h
    exact .ignored

theorem execX64Start_effect {s t : State} {A : BitVec 8} {D : Word32} (ha : A = bank .x64)
    (h : execX64Start D s = .next t) : WriteEffect s A D t := by
  unfold execX64Start at h
  dsimp only at h
  split at h
  · rename_i hc
    simp only [Bool.and_eq_true, Bool.not_eq_true'] at hc
    cases h
    exact .startX64 ha hc.1 hc.2
  · cases h
    exact .ignored

theorem write_effect {s t : State} {A : BitVec 8} {D : Word32} (h : runDecoded (decodeWrite A D) s = .next t) :
    WriteEffect s A D t := by
  unfold decodeWrite at h
  split at h
  · cases h
  · split at h
    case h_1 hb ho =>
      split at h
      · exact execH32Start_effect (address_of_fields hb ho) h
      · cases h; exact .ignored
    case h_5 hb ho =>
      split at h
      · exact execX86Start_effect (address_of_fields hb ho) h
      · cases h; exact .ignored
    case h_9 hb ho =>
      split at h
      · exact execX64Start_effect (address_of_fields hb ho) h
      · cases h; exact .ignored
    case h_2 hb ho => cases h; exact .seed .h32 (address_of_fields hb ho)
    case h_3 hb ho => cases h; exact .len .h32 (address_of_fields hb ho)
    case h_4 hb ho => cases h; exact .lenHi .h32 (address_of_fields hb ho)
    case h_6 hb ho => cases h; exact .seed .x86 (address_of_fields hb ho)
    case h_7 hb ho => cases h; exact .len .x86 (address_of_fields hb ho)
    case h_8 hb ho => cases h; exact .lenHi .x86 (address_of_fields hb ho)
    case h_10 hb ho => cases h; exact .seed .x64 (address_of_fields hb ho)
    case h_11 hb ho => cases h; exact .len .x64 (address_of_fields hb ho)
    case h_12 hb ho => cases h; exact .lenHi .x64 (address_of_fields hb ho)
    case h_13 => cases h; exact .ignored

/-- Everything a host read can do to the state. -/
inductive ReadEffect (s : State) : State → Prop
  | answered (v : Word32) : ReadEffect s (s.answer v)
  /-- A DIGEST read outside DONE draws a free value. -/
  | drew (e : Engine) (hp : (s.ctl e).phase ≠ .done) :
      ReadEffect s ((s.setCtl e ((s.ctl e).drew 1)).answer (free32 e (s.ctl e).draws))

theorem readDigest_effect (e : Engine) (w : Word32) (s : State) : ReadEffect s (readDigest e w s) := by
  unfold readDigest
  dsimp only
  split
  · exact .answered w
  · rename_i hp
    exact .drew e hp

theorem read_effect {s t : State} {A : BitVec 8} (h : runDecoded (decodeRead A) s = .next t) : ReadEffect s t := by
  unfold decodeRead at h
  split at h
  · cases h
  · split at h <;> cases h <;> first | exact .answered _ | exact readDigest_effect _ _ _

/-! ### An engine's turn -/

/-- Everything an engine's turn can do to the state. -/
inductive TurnEffect (s : State) : Engine → State → Prop
  | idle (e : Engine) (hb : busyBit (s.ctl e).phase = false) : TurnEffect s e s
  | h32Block (hp : s.h32.ctl.phase = .block) :
      TurnEffect s .h32
        { s with
          h32 :=
            { ctl := s.h32.ctl.afterBlock .h32 s.lenW, h1 := h32Round s.h32.h1 (blockWord 32 4 s .h32 0) } }
  | h32Tail (h : Word32) (hp : s.h32.ctl.phase = .tail)
      (hh : h = if laneCount 4 s.h32.ctl.rest 0 = 0 then s.h32.h1 else h32Absorb s.h32.h1 (tailWord 32 4 s .h32 0)) :
      TurnEffect s .h32 { s with h32 := { ctl := s.h32.ctl.afterTail, h1 := h } }
  | h32Final (hp : s.h32.ctl.phase = .final) (hd : s.h32.ctl.disturbed = false) :
      TurnEffect s .h32
        { s with h32 := { ctl := s.h32.ctl.afterFinal, h1 := h32Finish s.h32.h1 (finalLen32 s.h32.ctl) } }
  | h32Disturbed (h : Word32) (hp : s.h32.ctl.phase = .final) (hd : s.h32.ctl.disturbed = true)
      (hh : h = free32 .h32 s.h32.ctl.draws) :
      TurnEffect s .h32 { s with h32 := { ctl := s.h32.ctl.afterFinal.drew 1, h1 := h } }
  | x86Block (a : Acc4) (hp : s.x86.ctl.phase = .block)
      (ha : a = x86Round s.x86.acc (blockWord 32 4 s .x86 0) (blockWord 32 4 s .x86 1) (blockWord 32 4 s .x86 2)
        (blockWord 32 4 s .x86 3)) :
      TurnEffect s .x86 { s with x86 := x86Of (s.x86.ctl.afterBlock .x86 s.lenW) a }
  | x86Tail (a : Acc4) (hp : s.x86.ctl.phase = .tail)
      (ha : a = x86TailMix s.x86.acc s.x86.ctl.rest (tailWord 32 4 s .x86 0) (tailWord 32 4 s .x86 1)
        (tailWord 32 4 s .x86 2) (tailWord 32 4 s .x86 3)) :
      TurnEffect s .x86 { s with x86 := x86Of s.x86.ctl.afterTail a }
  | x86Final (hp : s.x86.ctl.phase = .final) (hd : s.x86.ctl.disturbed = false) :
      TurnEffect s .x86
        { s with x86 := x86Of s.x86.ctl.afterFinal (x86Finish s.x86.acc (finalLen32 s.x86.ctl)) }
  | x86Disturbed (a : Acc4) (hp : s.x86.ctl.phase = .final) (hd : s.x86.ctl.disturbed = true)
      (ha : a = { h1 := free32 .x86 s.x86.ctl.draws, h2 := free32 .x86 (s.x86.ctl.draws + 1),
                  h3 := free32 .x86 (s.x86.ctl.draws + 2), h4 := free32 .x86 (s.x86.ctl.draws + 3) }) :
      TurnEffect s .x86 { s with x86 := x86Of (s.x86.ctl.afterFinal.drew 4) a }
  | x64Block (a : Acc2) (hp : s.x64.ctl.phase = .block)
      (ha : a = x64Round s.x64.acc (blockWord 64 8 s .x64 0) (blockWord 64 8 s .x64 1)) :
      TurnEffect s .x64 { s with x64 := x64Of (s.x64.ctl.afterBlock .x64 s.lenW) a }
  | x64Tail (a : Acc2) (hp : s.x64.ctl.phase = .tail)
      (ha : a = x64TailMix s.x64.acc s.x64.ctl.rest (tailWord 64 8 s .x64 0) (tailWord 64 8 s .x64 1)) :
      TurnEffect s .x64 { s with x64 := x64Of s.x64.ctl.afterTail a }
  | x64Final (hp : s.x64.ctl.phase = .final) (hd : s.x64.ctl.disturbed = false) :
      TurnEffect s .x64 { s with x64 := x64Of s.x64.ctl.afterFinal (x64Finish s.x64.acc s.x64.ctl.lenQ) }
  | x64Disturbed (a : Acc2) (hp : s.x64.ctl.phase = .final) (hd : s.x64.ctl.disturbed = true)
      (ha : a = { h1 := Config.free .x64 s.x64.ctl.draws, h2 := Config.free .x64 (s.x64.ctl.draws + 1) }) :
      TurnEffect s .x64 { s with x64 := x64Of (s.x64.ctl.afterFinal.drew 2) a }

theorem turn_effect {s t : State} {e : Engine} (h : runEngine e s = .next t) : TurnEffect s e t := by
  cases hp : (s.ctl e).phase
  · rw [runEngine_of_idle hp] at h
    cases h
    exact .idle e (by rw [hp]; rfl)
  · cases e
    · rw [runEngine_h32_block hp] at h; cases h; exact .h32Block hp
    · rw [runEngine_x86_block hp] at h; cases h; exact .x86Block _ hp rfl
    · rw [runEngine_x64_block hp] at h; cases h; exact .x64Block _ hp rfl
  · cases e
    · rw [runEngine_h32_tail hp] at h; cases h; exact .h32Tail _ hp rfl
    · rw [runEngine_x86_tail hp] at h; cases h; exact .x86Tail _ hp rfl
    · rw [runEngine_x64_tail hp] at h; cases h; exact .x64Tail _ hp rfl
  · cases e
    · rw [runEngine_h32_final hp] at h
      cases hd : s.h32.ctl.disturbed <;> simp only [execH32Final, hd, Bool.false_eq_true, if_false, if_true] at h <;> cases h
      · exact .h32Final hp hd
      · exact .h32Disturbed _ hp hd rfl
    · rw [runEngine_x86_final hp] at h
      cases hd : s.x86.ctl.disturbed <;> simp only [execX86Final, hd, Bool.false_eq_true, if_false, if_true] at h <;> cases h
      · exact .x86Final hp hd
      · exact .x86Disturbed _ hp hd rfl
    · rw [runEngine_x64_final hp] at h
      cases hd : s.x64.ctl.disturbed <;> simp only [execX64Final, hd, Bool.false_eq_true, if_false, if_true] at h <;> cases h
      · exact .x64Final hp hd
      · exact .x64Disturbed _ hp hd rfl
  · rw [runEngine_of_done hp] at h
    cases h
    exact .idle e (by rw [hp]; rfl)

/-! ### One event -/

/-- Everything one event can do to the state. -/
inductive InputEffect (s : State) : Input → State → Prop
  | hostWrite (T : BitVec 40) (t : State) (h : WriteEffect s (T.extractLsb' 32 8) (T.extractLsb' 0 32) t) :
      InputEffect s (.hostWrite T) t
  | hostRead (A : BitVec 8) (t : State) (h : ReadEffect s t) : InputEffect s (.hostRead A) t
  | engineTurn (e : Engine) (t : State) (h : TurnEffect s e t) : InputEffect s (.engineTurn e) t
  | reset : InputEffect s .reset (resetEvent s)
  | messageByte (e : Engine) (off : Word64) (b : Byte) (h : off.toNat < 2 ^ s.lenW) :
      InputEffect s (.messageByte e off b) (setMessageByte s e off b)

theorem input_effect {s t : State} {i : Input} (h : runInput i s = .next t) : InputEffect s i t := by
  cases i with
  | hostWrite T => exact .hostWrite T t (write_effect h)
  | hostRead A => exact .hostRead A t (read_effect h)
  | engineTurn e => exact .engineTurn e t (turn_effect h)
  | reset => cases h; exact .reset
  | messageByte e off b =>
    unfold runInput at h
    dsimp only at h
    split at h
    · rename_i hlt
      cases h
      exact .messageByte e off b hlt
    · cases h

end Sys2Proof.Machine
end

