-- ==== Sys2Proof/Laws/Words.lean ====
section
/-! SUPPORT. Message words byte by byte: a block word and a tail word are their bytes side by side, the first lowest. -/

namespace Sys2Proof.Machine

/-- Bit `i` of a little-endian word is bit `i mod 8` of byte `i / 8` (R62). -/
theorem leWord_getLsbD (w : Nat) (bs : List Byte) (i : Nat) (hi : i < w) :
    (leWord w bs).getLsbD i = (bs.getD (i / 8) 0).getLsbD (i % 8) := by
  induction bs generalizing i with
  | nil => simp
  | cons b bs ih =>
    rw [leWord_cons, BitVec.getLsbD_or, BitVec.getLsbD_shiftLeft, BitVec.getLsbD_setWidth]
    by_cases h : i < 8
    · simp [hi, h, Nat.div_eq_of_lt h, Nat.mod_eq_of_lt h]
    · have : i / 8 = (i - 8) / 8 + 1 := by omega
      have h2 : i % 8 = (i - 8) % 8 := by omega
      rw [this, h2, List.getD_cons_succ, ← ih (i-8) (by omega)]
      simp [hi, h]
      intro hh; exact absurd (BitVec.lt_of_getLsbD hh) h

/-- Four bytes, the first the least significant (R62). -/
theorem leWord_four (a b c d : Byte) : leWord 32 [a,b,c,d] = (d ++ c ++ b ++ a : Word32) := by
  apply BitVec.eq_of_getLsbD_eq
  intro i hi
  rw [leWord_getLsbD _ _ _ hi]
  simp only [BitVec.getLsbD_append]
  by_cases h1 : i < 8
  · simp [h1, show i/8=0 by omega, show i%8=i by omega]
  by_cases h2 : i < 16
  · simp [h1, show i/8=1 by omega, show i%8=i-8 by omega, show i-8<8 by omega]
  by_cases h3 : i < 24
  · simp [h1, show i/8=2 by omega, show i%8=i-8-8 by omega, show ¬ i-8<8 by omega, show i-8-8 < 8 by omega]
  · simp [h1, show i/8=3 by omega, show i%8=i-8-8-8 by omega, show ¬ i-8<8 by omega, show ¬ i-8-8 < 8 by omega]

/-- Eight bytes, the first the least significant (R62). -/
theorem leWord_eight (a b c d e f g h : Byte) : leWord 64 [a,b,c,d,e,f,g,h] = (h ++ g ++ f ++ e ++ d ++ c ++ b ++ a :
    Word64) := by
  apply BitVec.eq_of_getLsbD_eq
  intro i hi
  rw [leWord_getLsbD _ _ _ hi]
  simp only [BitVec.getLsbD_append]
  have : i / 8 < 8 := by omega
  have h8 : i / 8 = 0 ∨ i/8=1 ∨ i/8=2 ∨ i/8=3 ∨ i/8=4 ∨ i/8=5 ∨ i/8=6 ∨ i/8=7 := by omega
  rcases h8 with h8|h8|h8|h8|h8|h8|h8|h8
  · simp [h8, show i<8 by omega, show i%8=i by omega]
  · simp [h8, show ¬i<8 by omega, show i-8<8 by omega, show i%8=i-8 by omega]
  · simp [h8, show ¬i<8 by omega, show ¬ i-8<8 by omega, show i-8-8<8 by omega, show i%8=i-8-8 by omega]
  · simp [h8, show ¬i<8 by omega, show ¬ i-8<8 by omega, show ¬ i-8-8<8 by omega, show i-8-8-8<8 by omega,
      show i%8=i-8-8-8 by omega]
  · simp [h8, show ¬i<8 by omega, show ¬ i-8<8 by omega, show ¬ i-8-8<8 by omega, show ¬ i-8-8-8<8 by omega,
      show i-8-8-8-8<8 by omega, show i%8=i-8-8-8-8 by omega]
  · simp [h8, show ¬i<8 by omega, show ¬ i-8<8 by omega, show ¬ i-8-8<8 by omega, show ¬ i-8-8-8<8 by omega,
      show ¬ i-8-8-8-8<8 by omega, show i-8-8-8-8-8<8 by omega,show i%8=i-8-8-8-8-8 by omega]
  · simp [h8, show ¬i<8 by omega, show ¬ i-8<8 by omega, show ¬ i-8-8<8 by omega, show ¬ i-8-8-8<8 by omega,
      show ¬ i-8-8-8-8<8 by omega, show ¬ i-8-8-8-8-8<8 by omega, show i-8-8-8-8-8-8<8 by omega,show i%8=i-8-8-8-8-8-8 by omega]
  · simp [h8, show ¬i<8 by omega, show ¬ i-8<8 by omega, show ¬ i-8-8<8 by omega, show ¬ i-8-8-8<8 by omega,
      show ¬ i-8-8-8-8<8 by omega, show ¬ i-8-8-8-8-8<8 by omega,
          show ¬ i-8-8-8-8-8-8<8 by omega,show i%8=i-8-8-8-8-8-8-8 by omega]

theorem msgBytes_getD (s : State) (e : Engine) (off n j : Nat) :
    (msgBytes s e off n).getD j 0 = if j < n then msgByte s e (off + j) else 0 := by
  induction n generalizing off j with
  | zero => simp
  | succ n ih =>
    cases j with
    | zero => simp
    | succ j => rw [msgBytes_succ, List.getD_cons_succ, ih]; simp [Nat.add_assoc, Nat.add_comm 1 j]

/-- A word depends on its bytes only, absent ones being 0 (R64). -/
theorem leWord_congr {w : Nat} (l l' : List Byte) (h : ∀ j, 8*j < w → l.getD j 0 = l'.getD j 0) : leWord w l = leWord w l' := by
  apply BitVec.eq_of_getLsbD_eq; intro i hi
  rw [leWord_getLsbD _ _ _ hi, leWord_getLsbD _ _ _ hi, h _ (by omega)]

/-- Inside the message the offset does not wrap (R26). -/
theorem off_add_of_le {c : Ctl} {n lenW : Nat} (hw : lenW ≤ 64) (hq : c.lenQ.toNat < 2 ^ lenW) (h :
    c.off.toNat + n ≤ c.lenQ.toNat) :
   truncTo lenW (c.off + BitVec.ofNat 64 n) = c.off + BitVec.ofNat 64 n ∧
       (c.off + BitVec.ofNat 64 n).toNat = c.off.toNat + n := by
  have hlt : 2^lenW ≤ 2^64 := Nat.pow_le_pow_right (by decide) hw
  have e2 : (c.off + BitVec.ofNat 64 n).toNat = c.off.toNat + n := by
    rw [BitVec.toNat_add, BitVec.toNat_ofNat, Nat.mod_eq_of_lt (a := n) (by omega), Nat.mod_eq_of_lt (by omega)]
  refine ⟨BitVec.eq_of_toNat_eq ?_, e2⟩
  rw [truncTo_toNat _ _ hw, e2, Nat.mod_eq_of_lt (by omega)]

/-- The word of four block bytes (R62, R66). -/
theorem blockWord_four (s : State) (e : Engine) (i : Nat) (hq : (s.ctl e).lenQ.toNat < 2 ^ s.lenW) (h :
    (s.ctl e).off.toNat + 4*i+4 ≤ (s.ctl e).lenQ.toNat) :
   blockWord 32 4 s e i = (s.blockByte e (4*i+3) ++ s.blockByte e (4*i+2) ++ s.blockByte e (4*i+1) ++ s.blockByte e (4*i) :
       Word32) := by
  rw [blockWord, memReadWord, ← leWord_four]
  simp only [msgBytes, State.blockByte]
  rw [msgByte_of_lt _ _ _ (by omega), msgByte_of_lt _ _ _ (by omega), msgByte_of_lt _ _ _ (by omega),
      msgByte_of_lt _ _ _ (by omega)]
  rfl

/-- The word of eight block bytes (R62, R66). -/
theorem blockWord_eight (s : State) (e : Engine) (i : Nat) (hq : (s.ctl e).lenQ.toNat < 2 ^ s.lenW) (h :
    (s.ctl e).off.toNat + 8*i+8 ≤ (s.ctl e).lenQ.toNat) :
   blockWord 64 8 s e i = (s.blockByte e (8*i+7) ++ s.blockByte e (8*i+6) ++ s.blockByte e (8*i+5) ++
       s.blockByte e (8*i+4) ++ s.blockByte e (8*i+3) ++ s.blockByte e (8*i+2) ++ s.blockByte e (8*i+1) ++
           s.blockByte e (8*i) : Word64) := by
  rw [blockWord, memReadWord, ← leWord_eight]
  simp only [msgBytes, State.blockByte]
  rw [msgByte_of_lt _ _ _ (by omega), msgByte_of_lt _ _ _ (by omega), msgByte_of_lt _ _ _ (by omega),
      msgByte_of_lt _ _ _ (by omega),msgByte_of_lt _ _ _ (by omega), msgByte_of_lt _ _ _ (by omega),
          msgByte_of_lt _ _ _ (by omega), msgByte_of_lt _ _ _ (by omega)]
  rfl

theorem msgByte_eq_tailByte (s : State) (e : Engine) (o j n t : Nat) (hq : (s.ctl e).lenQ.toNat < 2 ^ s.lenW) (ho :
    o + j = (s.ctl e).off.toNat + t) (h : j < n ↔ (s.ctl e).off.toNat + t < (s.ctl e).lenQ.toNat) :
   (if j < n then msgByte s e (o + j) else 0) = s.tailByte e t := by
  unfold State.tailByte
  by_cases hh : (s.ctl e).off.toNat + t < (s.ctl e).lenQ.toNat
  · rw [if_pos (h.2 hh), if_pos hh, ho, msgByte_of_lt _ _ _ (by omega)]
  · rw [if_neg (fun x => hh (h.1 x)), if_neg hh]

theorem tailByte_of_end (s : State) (e : Engine) (t : Nat) (h : (s.ctl e).lenQ.toNat ≤ (s.ctl e).off.toNat + t) :
    s.tailByte e t = 0 := if_neg (by omega)

/-- The word of four tail bytes (R64). -/
theorem tailWord_four (s : State) (e : Engine) (i : Nat) (hq : (s.ctl e).lenQ.toNat < 2 ^ s.lenW) :
   tailWord 32 4 s e i = (s.tailByte e (4*i+3) ++ s.tailByte e (4*i+2) ++ s.tailByte e (4*i+1) ++ s.tailByte e (4*i) :
       Word32) := by
  rw [tailWord, memReadWord, ← leWord_four]
  apply leWord_congr
  intro j hj
  rw [msgBytes_getD]
  have : j = 0 ∨ j = 1 ∨ j = 2 ∨ j = 3 := by omega
  rcases this with rfl|rfl|rfl|rfl <;> simp only [List.getD_cons_zero, List.getD_cons_succ]
  all_goals exact msgByte_eq_tailByte s e _ _ _ _ hq (by omega) (by simp only [laneCount, Ctl.rest]; omega)

/-- The word of eight tail bytes (R64). -/
theorem tailWord_eight (s : State) (e : Engine) (i : Nat) (hq : (s.ctl e).lenQ.toNat < 2 ^ s.lenW) :
   tailWord 64 8 s e i = (s.tailByte e (8*i+7) ++ s.tailByte e (8*i+6) ++ s.tailByte e (8*i+5) ++ s.tailByte e (8*i+4) ++
       s.tailByte e (8*i+3) ++ s.tailByte e (8*i+2) ++ s.tailByte e (8*i+1) ++ s.tailByte e (8*i) : Word64) := by
  rw [tailWord, memReadWord, ← leWord_eight]
  apply leWord_congr
  intro j hj
  rw [msgBytes_getD]
  have : j = 0 ∨ j = 1 ∨ j = 2 ∨ j = 3 ∨ j=4 ∨ j=5 ∨ j=6 ∨ j=7:= by omega
  rcases this with rfl|rfl|rfl|rfl|rfl|rfl|rfl|rfl <;> simp only [List.getD_cons_zero, List.getD_cons_succ]
  all_goals exact msgByte_eq_tailByte s e _ _ _ _ hq (by omega) (by simp only [laneCount, Ctl.rest]; omega)

end Sys2Proof.Machine
end

