-- ==== Sys2Proof/Laws/Frames.lean ====
section
/-! SUPPORT. What every event leaves alone: `LEN_W` and the message spaces; what a turn does to the control part. -/

namespace Sys2Proof.Machine

/-- No host write changes `LEN_W`. -/
theorem lenW_write {s t : State} {A : BitVec 8} {D : Word32} (h : WriteEffect s A D t) : t.lenW = s.lenW := by
  cases h <;> first | rfl | (simp [writeSeed, writeLen, writeLenHi])

/-- No turn changes `LEN_W`. -/
theorem lenW_turn {s t : State} {e : Engine} (h : TurnEffect s e t) : t.lenW = s.lenW := by cases h <;> rfl

/-- No event changes `LEN_W`. -/
theorem lenW_input {s t : State} {i : Input} (h : InputEffect s i t) : t.lenW = s.lenW := by
  cases h with
  | hostWrite T t h => exact lenW_write h
  | hostRead A t h => cases h <;> simp
  | engineTurn e t h => exact lenW_turn h
  | reset => rfl
  | messageByte => simp [setMessageByte]

/-- No host write changes a message space. -/
theorem msg_write {s t : State} {A : BitVec 8} {D : Word32} (h : WriteEffect s A D t) (e : Engine) : t.msg e = s.msg e := by
  cases h <;> first | (cases e <;> rfl) | (simp [writeSeed, writeLen, writeLenHi])

/-- No turn changes a message space. -/
theorem msg_turn {s t : State} {e : Engine} (h : TurnEffect s e t) (e' : Engine) : t.msg e' = s.msg e' := by cases h <;>
    cases e' <;> rfl

/-- Everything a turn can do to the control part of its engine. -/
inductive CtlTurn (lenW : Nat) (e : Engine) (c : Ctl) : Ctl → Prop
  | idle (h : busyBit c.phase = false) : CtlTurn lenW e c c
  | block (h : c.phase = .block) : CtlTurn lenW e c (c.afterBlock e lenW)
  | tail (h : c.phase = .tail) : CtlTurn lenW e c c.afterTail
  | final (k : Nat) (h : c.phase = .final) : CtlTurn lenW e c (c.afterFinal.drew k)

/-- A turn changes the control part of its own engine only. -/
theorem ctl_turn {s t : State} {e : Engine} (h : TurnEffect s e t) : CtlTurn s.lenW e (s.ctl e) (t.ctl e) ∧ ∀ e', e' ≠ e →
    t.ctl e' = s.ctl e' := by
  cases h <;> refine ⟨?_, fun e' h' => by cases e' <;> first | rfl | exact absurd rfl h'⟩ <;>
      first | exact .block ‹_› | exact .tail ‹_› | exact .final 0 ‹_› | exact .final _ ‹_› | exact .idle ‹_›

end Sys2Proof.Machine
end

