-- ==== Sys2Proof/Laws/PerInstr.lean ====
section
/-! SUPPORT. The family PortEncoding: every instruction's request is an encoding of its own format, a host transaction standing
at a word-aligned address of an engine's bank (R91, R92) and a sequencer operation at a selector of an engine's step (R94). -/

namespace Sys2Proof.Laws.PortEncoding

open Sys2Proof

/-- The request is one the interface has: an aligned address outside bank 3, or a selector that names a step. -/
def requestOk : Request → Bool
  | .write T => decide (T.extractLsb' 32 2 = 0) && decide (T.extractLsb' 38 2 ≠ 3)
  | .read A => decide (A.extractLsb' 0 2 = 0) && decide (A.extractLsb' 6 2 ≠ 3)
  | .select S => (Machine.selected S).isSome

def Statement (i : Instr) : Prop :=
  requestOk (encode i) = true

theorem append_requestOk (A : BitVec 8) (D : Word32) (h : A.extractLsb' 0 2 = 0) (h' : A.extractLsb' 6 2 ≠ 3) :
    requestOk (.write (A ++ D)) = true := by
  have h1 : (A ++ D : BitVec 40).extractLsb' 32 2 = A.extractLsb' 0 2 := by
    refine BitVec.eq_of_getLsbD_eq fun i hi => ?_
    rw [BitVec.getLsbD_extractLsb', Machine.append_getLsbD, BitVec.getLsbD_extractLsb']
    simp
  have h2 : (A ++ D : BitVec 40).extractLsb' 38 2 = A.extractLsb' 6 2 := by
    refine BitVec.eq_of_getLsbD_eq fun i hi => ?_
    rw [BitVec.getLsbD_extractLsb', Machine.append_getLsbD, BitVec.getLsbD_extractLsb']
    simp [show ¬ 38 + i < 32 by omega, show 38 + i - 32 = 6 + i by omega]
  simp only [requestOk, h1, h2, h, h', decide_true, Bool.and_self, ne_eq, not_false_eq_true]

theorem h32Start (data : Word32) : Statement (.h32Start data) := append_requestOk _ data (by decide) (by decide)
theorem h32WrSeed (data : Word32) : Statement (.h32WrSeed data) := append_requestOk _ data (by decide) (by decide)
theorem h32WrLen (data : Word32) : Statement (.h32WrLen data) := append_requestOk _ data (by decide) (by decide)
theorem h32WrLenHi (data : Word32) : Statement (.h32WrLenHi data) := append_requestOk _ data (by decide) (by decide)
theorem x86Start (data : Word32) : Statement (.x86Start data) := append_requestOk _ data (by decide) (by decide)
theorem x86WrSeed (data : Word32) : Statement (.x86WrSeed data) := append_requestOk _ data (by decide) (by decide)
theorem x86WrLen (data : Word32) : Statement (.x86WrLen data) := append_requestOk _ data (by decide) (by decide)
theorem x86WrLenHi (data : Word32) : Statement (.x86WrLenHi data) := append_requestOk _ data (by decide) (by decide)
theorem x64Start (data : Word32) : Statement (.x64Start data) := append_requestOk _ data (by decide) (by decide)
theorem x64WrSeed (data : Word32) : Statement (.x64WrSeed data) := append_requestOk _ data (by decide) (by decide)
theorem x64WrLen (data : Word32) : Statement (.x64WrLen data) := append_requestOk _ data (by decide) (by decide)
theorem x64WrLenHi (data : Word32) : Statement (.x64WrLenHi data) := append_requestOk _ data (by decide) (by decide)
theorem h32RdStatus : Statement .h32RdStatus := rfl
theorem h32RdSeed : Statement .h32RdSeed := rfl
theorem h32RdLen : Statement .h32RdLen := rfl
theorem h32RdLenHi : Statement .h32RdLenHi := rfl
theorem h32RdDigest0 : Statement .h32RdDigest0 := rfl
theorem x86RdStatus : Statement .x86RdStatus := rfl
theorem x86RdSeed : Statement .x86RdSeed := rfl
theorem x86RdLen : Statement .x86RdLen := rfl
theorem x86RdLenHi : Statement .x86RdLenHi := rfl
theorem x86RdDigest0 : Statement .x86RdDigest0 := rfl
theorem x86RdDigest1 : Statement .x86RdDigest1 := rfl
theorem x86RdDigest2 : Statement .x86RdDigest2 := rfl
theorem x86RdDigest3 : Statement .x86RdDigest3 := rfl
theorem x64RdStatus : Statement .x64RdStatus := rfl
theorem x64RdSeed : Statement .x64RdSeed := rfl
theorem x64RdLen : Statement .x64RdLen := rfl
theorem x64RdLenHi : Statement .x64RdLenHi := rfl
theorem x64RdDigest0 : Statement .x64RdDigest0 := rfl
theorem x64RdDigest1 : Statement .x64RdDigest1 := rfl
theorem x64RdDigest2 : Statement .x64RdDigest2 := rfl
theorem x64RdDigest3 : Statement .x64RdDigest3 := rfl
theorem h32Block : Statement .h32Block := rfl
theorem h32Tail : Statement .h32Tail := rfl
theorem h32Final : Statement .h32Final := rfl
theorem x86Block : Statement .x86Block := rfl
theorem x86Tail : Statement .x86Tail := rfl
theorem x86Final : Statement .x86Final := rfl
theorem x64Block : Statement .x64Block := rfl
theorem x64Tail : Statement .x64Tail := rfl
theorem x64Final : Statement .x64Final := rfl

end Sys2Proof.Laws.PortEncoding
end

