-- ==== Sys2Proof/Tests/Slice0.lean ====
section
/-! SUPPORT. The model's own tests: well-formedness, decoding of words written out from the spec, one-step tests on the spec's
vectors (spec/95_test_vectors.md and the worked examples of the rules), and a witness for the hypotheses of every obligation. -/

namespace Sys2Proof.Tests

open Sys2Proof.Machine

/-! ### Helpers -/

/-- The message `ramp(n)` of spec/95_test_vectors.md: the byte at offset `j` is `j + 1`. -/
def ramp (n : Nat) : Memory :=
  (List.range n).map fun j => (j, BitVec.ofNat 8 (j + 1))

/-- A control part at some point of a run. -/
def ctlAt (phase : Phase) (seed : Word32) (lenQ off : Word64) : Ctl :=
  { Ctl.reset with seed := seed, len := lenQ, lenQ := lenQ, off := off, phase := phase }

/-- H32 at some point of a run over `ramp`. -/
def h32At (phase : Phase) (seed : Word32) (lenQ off : Word64) (h1 : Word32) : State :=
  { State.reset with msgH32 := ramp 49, h32 := { ctl := ctlAt phase seed lenQ off, h1 := h1 } }

/-- X86 at some point of a run over `ramp`. -/
def x86At (phase : Phase) (seed : Word32) (lenQ off : Word64) (h1 h2 h3 h4 : Word32) : State :=
  { State.reset with
    msgX86 := ramp 49, x86 := { ctl := ctlAt phase seed lenQ off, h1 := h1, h2 := h2, h3 := h3, h4 := h4 } }

/-- X64 at some point of a run over `ramp`. -/
def x64At (phase : Phase) (seed : Word32) (lenQ off : Word64) (h1 h2 : Word64) : State :=
  { State.reset with msgX64 := ramp 49, x64 := { ctl := ctlAt phase seed lenQ off, h1 := h1, h2 := h2 } }

/-- The next state, where there is one. -/
def after (o : Host.Outcome State Fault Refusal) : Option State :=
  match o with
  | .next t => some t
  | .fault _ => none
  | .refused _ => none

/-- What the last host read returned. -/
def answered (o : Host.Outcome State Fault Refusal) : Option Word32 :=
  (after o).bind fun t => t.answers.head?

/-- Accumulator, offset and phase of H32 after an outcome. -/
def h32View (o : Host.Outcome State Fault Refusal) : Option (Word32 × Nat × Phase) :=
  (after o).map fun t => (t.h32.h1, t.h32.ctl.off.toNat, t.h32.ctl.phase)

/-- Accumulators, offset and phase of X86 after an outcome. -/
def x86View (o : Host.Outcome State Fault Refusal) : Option (Acc4 × Nat × Phase) :=
  (after o).map fun t => (t.x86.acc, t.x86.ctl.off.toNat, t.x86.ctl.phase)

/-- Accumulators, offset and phase of X64 after an outcome. -/
def x64View (o : Host.Outcome State Fault Refusal) : Option (Acc2 × Nat × Phase) :=
  (after o).map fun t => (t.x64.acc, t.x64.ctl.off.toNat, t.x64.ctl.phase)

/-! ### Well-formedness (spec/30_encoding.md R95): a START has data bit 0 set -/

theorem test_wellFormed_h32Start : Instr.wellFormed (.h32Start 0x00000001) = true := by decide
theorem test_illFormed_h32Start : Instr.wellFormed (.h32Start 0xFFFFFFFE) = false := by decide
theorem test_wellFormed_x86Start : Instr.wellFormed (.x86Start 0xFFFFFFFF) = true := by decide
theorem test_illFormed_x86Start : Instr.wellFormed (.x86Start 0x00000000) = false := by decide
theorem test_wellFormed_x64Start : Instr.wellFormed (.x64Start 0x80000001) = true := by decide
theorem test_illFormed_x64Start : Instr.wellFormed (.x64Start 0x00000002) = false := by decide

/-! ### Decoding, one word per constructor, written out from spec/30_encoding.md R91 to R95 and R102

Host writes: `ENG` (2 bits), `OFFSET` (6 bits), `DATA` (32 bits). -/

theorem test_decode_h32Start :
    decode (.write (0b00#2 ++ 0b000000#6 ++ 0x00000001#32 : BitVec 40)) = .instr (.h32Start 0x00000001) := by decide
theorem test_decode_h32WrSeed :
    decode (.write (0b00#2 ++ 0b001000#6 ++ 0x9747B28C#32 : BitVec 40)) = .instr (.h32WrSeed 0x9747B28C) := by decide
theorem test_decode_h32WrLen :
    decode (.write (0b00#2 ++ 0b001100#6 ++ 0x00000009#32 : BitVec 40)) = .instr (.h32WrLen 0x00000009) := by decide
theorem test_decode_h32WrLenHi :
    decode (.write (0b00#2 ++ 0b010000#6 ++ 0x000001FF#32 : BitVec 40)) = .instr (.h32WrLenHi 0x000001FF) := by decide
theorem test_decode_x86Start :
    decode (.write (0b01#2 ++ 0b000000#6 ++ 0xDEADBEEF#32 : BitVec 40)) = .instr (.x86Start 0xDEADBEEF) := by decide
theorem test_decode_x86WrSeed :
    decode (.write (0b01#2 ++ 0b001000#6 ++ 0x00000000#32 : BitVec 40)) = .instr (.x86WrSeed 0x00000000) := by decide
theorem test_decode_x86WrLen :
    decode (.write (0b01#2 ++ 0b001100#6 ++ 0x00000011#32 : BitVec 40)) = .instr (.x86WrLen 0x00000011) := by decide
theorem test_decode_x86WrLenHi :
    decode (.write (0b01#2 ++ 0b010000#6 ++ 0x12345678#32 : BitVec 40)) = .instr (.x86WrLenHi 0x12345678) := by decide
theorem test_decode_x64Start :
    decode (.write (0b10#2 ++ 0b000000#6 ++ 0xFFFFFFFF#32 : BitVec 40)) = .instr (.x64Start 0xFFFFFFFF) := by decide
theorem test_decode_x64WrSeed :
    decode (.write (0b10#2 ++ 0b001000#6 ++ 0xFFFFFFFF#32 : BitVec 40)) = .instr (.x64WrSeed 0xFFFFFFFF) := by decide
theorem test_decode_x64WrLen :
    decode (.write (0b10#2 ++ 0b001100#6 ++ 0x80000001#32 : BitVec 40)) = .instr (.x64WrLen 0x80000001) := by decide
theorem test_decode_x64WrLenHi :
    decode (.write (0b10#2 ++ 0b010000#6 ++ 0xFEDCBA98#32 : BitVec 40)) = .instr (.x64WrLenHi 0xFEDCBA98) := by decide

/-! Host reads: `ENG` (2 bits), `OFFSET` (6 bits). -/

theorem test_decode_h32RdStatus : decode (.read (0b00#2 ++ 0b000100#6 : BitVec 8)) = .instr .h32RdStatus := by decide
theorem test_decode_h32RdSeed : decode (.read (0b00#2 ++ 0b001000#6 : BitVec 8)) = .instr .h32RdSeed := by decide
theorem test_decode_h32RdLen : decode (.read (0b00#2 ++ 0b001100#6 : BitVec 8)) = .instr .h32RdLen := by decide
theorem test_decode_h32RdLenHi : decode (.read (0b00#2 ++ 0b010000#6 : BitVec 8)) = .instr .h32RdLenHi := by decide
theorem test_decode_h32RdDigest0 : decode (.read (0b00#2 ++ 0b100000#6 : BitVec 8)) = .instr .h32RdDigest0 := by decide
theorem test_decode_x86RdStatus : decode (.read (0b01#2 ++ 0b000100#6 : BitVec 8)) = .instr .x86RdStatus := by decide
theorem test_decode_x86RdSeed : decode (.read (0b01#2 ++ 0b001000#6 : BitVec 8)) = .instr .x86RdSeed := by decide
theorem test_decode_x86RdLen : decode (.read (0b01#2 ++ 0b001100#6 : BitVec 8)) = .instr .x86RdLen := by decide
theorem test_decode_x86RdLenHi : decode (.read (0b01#2 ++ 0b010000#6 : BitVec 8)) = .instr .x86RdLenHi := by decide
theorem test_decode_x86RdDigest0 : decode (.read (0b01#2 ++ 0b100000#6 : BitVec 8)) = .instr .x86RdDigest0 := by decide
theorem test_decode_x86RdDigest1 : decode (.read (0b01#2 ++ 0b100100#6 : BitVec 8)) = .instr .x86RdDigest1 := by decide
theorem test_decode_x86RdDigest2 : decode (.read (0b01#2 ++ 0b101000#6 : BitVec 8)) = .instr .x86RdDigest2 := by decide
theorem test_decode_x86RdDigest3 : decode (.read (0b01#2 ++ 0b101100#6 : BitVec 8)) = .instr .x86RdDigest3 := by decide
theorem test_decode_x64RdStatus : decode (.read (0b10#2 ++ 0b000100#6 : BitVec 8)) = .instr .x64RdStatus := by decide
theorem test_decode_x64RdSeed : decode (.read (0b10#2 ++ 0b001000#6 : BitVec 8)) = .instr .x64RdSeed := by decide
theorem test_decode_x64RdLen : decode (.read (0b10#2 ++ 0b001100#6 : BitVec 8)) = .instr .x64RdLen := by decide
theorem test_decode_x64RdLenHi : decode (.read (0b10#2 ++ 0b010000#6 : BitVec 8)) = .instr .x64RdLenHi := by decide
theorem test_decode_x64RdDigest0 : decode (.read (0b10#2 ++ 0b100000#6 : BitVec 8)) = .instr .x64RdDigest0 := by decide
theorem test_decode_x64RdDigest1 : decode (.read (0b10#2 ++ 0b100100#6 : BitVec 8)) = .instr .x64RdDigest1 := by decide
theorem test_decode_x64RdDigest2 : decode (.read (0b10#2 ++ 0b101000#6 : BitVec 8)) = .instr .x64RdDigest2 := by decide
theorem test_decode_x64RdDigest3 : decode (.read (0b10#2 ++ 0b101100#6 : BitVec 8)) = .instr .x64RdDigest3 := by decide

/-! Sequencer selectors: `ENG` (2 bits), `PHASE` (3 bits). -/

theorem test_decode_h32Block : decode (.select (0b00#2 ++ 0b001#3 : BitVec 5)) = .instr .h32Block := by decide
theorem test_decode_h32Tail : decode (.select (0b00#2 ++ 0b010#3 : BitVec 5)) = .instr .h32Tail := by decide
theorem test_decode_h32Final : decode (.select (0b00#2 ++ 0b011#3 : BitVec 5)) = .instr .h32Final := by decide
theorem test_decode_x86Block : decode (.select (0b01#2 ++ 0b001#3 : BitVec 5)) = .instr .x86Block := by decide
theorem test_decode_x86Tail : decode (.select (0b01#2 ++ 0b010#3 : BitVec 5)) = .instr .x86Tail := by decide
theorem test_decode_x86Final : decode (.select (0b01#2 ++ 0b011#3 : BitVec 5)) = .instr .x86Final := by decide
theorem test_decode_x64Block : decode (.select (0b10#2 ++ 0b001#3 : BitVec 5)) = .instr .x64Block := by decide
theorem test_decode_x64Tail : decode (.select (0b10#2 ++ 0b010#3 : BitVec 5)) = .instr .x64Tail := by decide
theorem test_decode_x64Final : decode (.select (0b10#2 ++ 0b011#3 : BitVec 5)) = .instr .x64Final := by decide

/-! Requests that name no row (R94, R98): each class by name. -/

theorem test_decode_ctrl_write_without_bit0 : decode (.write 0x00FFFFFFFE) = .ignoredWrite := by decide
theorem test_decode_status_write : decode (.write 0x04FFFFFFFF) = .ignoredWrite := by decide
theorem test_decode_bank3_write : decode (.write 0xC000000001) = .ignoredWrite := by decide
theorem test_decode_ctrl_read : decode (.read 0x00) = .zeroRead := by decide
theorem test_decode_reserved_read : decode (.read 0x24) = .zeroRead := by decide
theorem test_decode_bank3_read : decode (.read 0xFC) = .zeroRead := by decide
theorem test_decode_idle_selector : decode (.select 0b00000) = .noStep := by decide
theorem test_decode_done_selector : decode (.select 0b10100) = .noStep := by decide
theorem test_decode_phase5_selector : decode (.select 0b01101) = .unnamedSelector := by decide
theorem test_decode_eng3_selector : decode (.select 0b11001) = .unnamedSelector := by decide
theorem test_decode_misaligned_read : decode (.read 0x05) = .misaligned := by decide
theorem test_decode_misaligned_write : decode (.write 0x0200000001) = .misaligned := by decide

/-! The opcode table's own numbering, one word of each format (spec/95_test_vectors.md P3, P4). -/

theorem test_tableWord_write : decodeTableWord 40 0x089747B28C = some (.h32WrSeed 0x9747B28C) := by decide
theorem test_tableWord_read : decodeTableWord 8 0x6C = some .x86RdDigest3 := by decide
theorem test_tableWord_select : decodeTableWord 8 0b10010 = some .x64Tail := by decide
theorem test_tableWord_select5 : decodeTableWord 5 0b00001 = some .h32Block := by decide
theorem test_tableWord_reserved : decodeTableWord 8 0xC0 = none := by decide

/-! ### Primitives (spec/95_test_vectors.md section 2.1) -/

theorem test_rotl32 : rotl32 0x12345678 19 = 0xB3C091A2 := by decide
theorem test_rotl64 : rotl64 0x0000000000000001 63 = 0x8000000000000000 := by decide
theorem test_fmix32 : fmix32 0xDEADBEEF = 0x0DE5C6A9 := by decide
theorem test_fmix64 : fmix64 0x0123456789ABCDEF = 0x87CBFBFE89022CEA := by decide
theorem test_kmix32 : kmix32 0x80000000 0xCC9E2D51 15 0x1B873593 = 0xCD64C000 := by decide
theorem test_kmix64 : kmix64 0x0807060504030201 0x4CF5AD432745937F 33 0x87C37B91114253D5 = 0x1DF06633FBCC178E := by decide

/-! ### Whole functions (spec/95_test_vectors.md sections 1.1, 2.2 to 2.4, 2.6) -/

theorem test_hash32_source : hash32 [0, 0, 0, 0] 0 = 0x2362F9DE := by decide
theorem test_hash32_unsigned_tail : hash32 [0xFF, 0xFF, 0xFF] 0 = 0xBF12A026 := by decide
theorem test_hash128x86_tail : hash128x86 [0x68, 0x65, 0x6C, 0x6C, 0x6F] 0 = ⟨0x2B2444A0, 0xDB91DEF7, 0x9ADB31B6,
    0x9ADB31B6⟩ := by decide
theorem test_hash128x64_seed : hash128x64 [] 0xFFFFFFFF = ⟨0x6AF1DF4D9D3BC9EC, 0x857421121EE6446B⟩ := by decide
theorem test_hash128x64_offset7 : hash128x64 [0, 0, 0, 0, 0, 0, 0, 0x80] 0 = ⟨0x01159DFEB4593227, 0x8BDEF8B0EC4FE0B6⟩ := by decide

/-! ### One step each: commands and sequencer operations (spec/95_test_vectors.md sections 2.2 to 2.5) -/

theorem test_h32Start :
    (after (exec (.h32Start 0xFFFFFFFF) (h32At .idle 7 2 0 0))).map
      (fun t => (t.h32.h1, t.h32.ctl.lenQ, t.h32.ctl.off, t.h32.ctl.phase)) = some (7, 2, 0, .tail) := by decide
theorem test_h32Start_busy :
    exec (.h32Start 1) (h32At .block 7 9 4 5) = .next (h32At .block 7 9 4 5) := by rfl
theorem test_h32Block :
    h32View (exec .h32Block (h32At .block 0x9747B28C 9 4 0xA7BA906F)) = some (0x26C80C24, 8, .tail) := by decide
theorem test_h32Block_again :
    h32View (exec .h32Block (h32At .block 0x9747B28C 9 0 0x9747B28C)) = some (0xA7BA906F, 4, .block) := by decide
theorem test_h32Tail :
    h32View (exec .h32Tail (h32At .tail 0x9747B28C 9 8 0x26C80C24)) = some (0x84A5E161, 9, .final) := by decide
theorem test_h32Tail_empty :
    h32View (exec .h32Tail (h32At .tail 0 4 4 0xE6546B64)) = some (0xE6546B64, 4, .final) := by decide
theorem test_h32Final :
    h32View (exec .h32Final (h32At .final 0x9747B28C 9 9 0x84A5E161)) = some (0x3F6AFD5B, 9, .done) := by decide
theorem test_x86Start :
    (after (exec (.x86Start 1) (x86At .done 1 33 33 9 9 9 9))).map
      (fun t => (t.x86.acc, t.x86.ctl.lenQ, t.x86.ctl.off, t.x86.ctl.phase)) = some (⟨1, 1, 1, 1⟩, 33, 0, .block) := by decide
theorem test_x86Block :
    x86View (exec .x86Block (x86At .block 1 33 16 0xCB4CCB5E 0x7AA4895B 0x7889C13F 0x84BAC008))
      = some (⟨0x4591F394, 0x4E6D3A6D, 0x36E53BA3, 0x370FD2C3⟩, 32, .tail) := by decide
theorem test_x86Tail :
    x86View (exec .x86Tail (x86At .tail 0 15 0 0 0 0 0))
      = some (⟨0xFFF4C2EC, 0xFD01BE49, 0x42032719, 0x54D3827C⟩, 15, .final) := by decide
theorem test_x86Tail_one_lane :
    x86View (exec .x86Tail (x86At .tail 1 33 32 0x4591F394 0x4E6D3A6D 0x36E53BA3 0x370FD2C3))
      = some (⟨0x76917FAB, 0x4E6D3A6D, 0x36E53BA3, 0x370FD2C3⟩, 33, .final) := by decide
theorem test_x86Final :
    x86View (exec .x86Final (x86At .final 1 33 33 0x76917FAB 0x4E6D3A6D 0x36E53BA3 0x370FD2C3))
      = some (⟨0xE6EEBEEE, 0x622BFF21, 0xEED6EFE4, 0x902D00E0⟩, 33, .done) := by decide
theorem test_x64Start :
    (after (exec (.x64Start 1) (x64At .idle 0xFFFFFFFF 0 0 5 5))).map (fun t => (t.x64.acc, t.x64.ctl.phase))
      = some (⟨0x00000000FFFFFFFF, 0x00000000FFFFFFFF⟩, .tail) := by decide
theorem test_x64Block :
    x64View (exec .x64Block (x64At .block 1 33 16 0x178124FD57939677 0x561DE10CB54574A0))
      = some (⟨0xBE194ED8C8A1A56C, 0x2D623BAC363E844D⟩, 32, .tail) := by decide
theorem test_x64Tail :
    x64View (exec .x64Tail (x64At .tail 0 15 0 0 0))
      = some (⟨0x84912EA0966DB987, 0x3E9927EB603CDCD6⟩, 15, .final) := by decide
theorem test_x64Tail_one_word :
    x64View (exec .x64Tail (x64At .tail 1 33 32 0xBE194ED8C8A1A56C 0x2D623BAC363E844D))
      = some (⟨0xA16C14EFCBFC35CB, 0x2D623BAC363E844D⟩, 33, .final) := by decide
theorem test_x64Final :
    x64View (exec .x64Final (x64At .final 1 33 33 0xA16C14EFCBFC35CB 0x2D623BAC363E844D))
      = some (⟨0x6570DB95712E056D, 0x6E87AA96911F5F9F⟩, 33, .done) := by decide

/-! ### One step each: register writes (R202, R203; spec/95_test_vectors.md section 2.5) -/


theorem test_h32WrSeed :
    (after (exec (.h32WrSeed 9) State.reset)).map (fun t => t.h32.ctl.seed) = some 9 := by decide
theorem test_h32WrLen_16 :
    (after (exec (.h32WrLen 0x00012345) { State.reset with lenW := 16 })).map (fun t => t.h32.ctl.len) = some 0x2345 := by
  decide
theorem test_h32WrLen_40 :
    (after (exec (.h32WrLen 0x00000009)
      { State.reset with lenW := 40, h32 := { State.reset.h32 with ctl := { Ctl.reset with len := 0xFF12345678 } } })).map
      (fun t => t.h32.ctl.len) = some 0xFF00000009 := by decide
theorem test_h32WrLenHi_40 :
    (after (exec (.h32WrLenHi 0x000001FF)
      { State.reset with lenW := 40, h32 := { State.reset.h32 with ctl := { Ctl.reset with len := 0x12345678 } } })).map
      (fun t => t.h32.ctl.len) = some 0xFF12345678 := by decide
theorem test_h32WrLenHi_32 :
    exec (.h32WrLenHi 0xFFFFFFFF) State.reset = .next State.reset := by rfl

theorem test_x86WrSeed :
    (after (exec (.x86WrSeed 9) State.reset)).map (fun t => t.x86.ctl.seed) = some 9 := by decide
theorem test_x86WrLen_16 :
    (after (exec (.x86WrLen 0x00012345) { State.reset with lenW := 16 })).map (fun t => t.x86.ctl.len) = some 0x2345 := by
  decide
theorem test_x86WrLen_40 :
    (after (exec (.x86WrLen 0x00000009)
      { State.reset with lenW := 40, x86 := { State.reset.x86 with ctl := { Ctl.reset with len := 0xFF12345678 } } })).map
      (fun t => t.x86.ctl.len) = some 0xFF00000009 := by decide
theorem test_x86WrLenHi_40 :
    (after (exec (.x86WrLenHi 0x000001FF)
      { State.reset with lenW := 40, x86 := { State.reset.x86 with ctl := { Ctl.reset with len := 0x12345678 } } })).map
      (fun t => t.x86.ctl.len) = some 0xFF12345678 := by decide
theorem test_x86WrLenHi_32 :
    exec (.x86WrLenHi 0xFFFFFFFF) State.reset = .next State.reset := by rfl

theorem test_x64WrSeed :
    (after (exec (.x64WrSeed 9) State.reset)).map (fun t => t.x64.ctl.seed) = some 9 := by decide
theorem test_x64WrLen_16 :
    (after (exec (.x64WrLen 0x00012345) { State.reset with lenW := 16 })).map (fun t => t.x64.ctl.len) = some 0x2345 := by
  decide
theorem test_x64WrLen_40 :
    (after (exec (.x64WrLen 0x00000009)
      { State.reset with lenW := 40, x64 := { State.reset.x64 with ctl := { Ctl.reset with len := 0xFF12345678 } } })).map
      (fun t => t.x64.ctl.len) = some 0xFF00000009 := by decide
theorem test_x64WrLenHi_40 :
    (after (exec (.x64WrLenHi 0x000001FF)
      { State.reset with lenW := 40, x64 := { State.reset.x64 with ctl := { Ctl.reset with len := 0x12345678 } } })).map
      (fun t => t.x64.ctl.len) = some 0xFF12345678 := by decide
theorem test_x64WrLenHi_32 :
    exec (.x64WrLenHi 0xFFFFFFFF) State.reset = .next State.reset := by rfl

/-! ### One step each: register reads (R204, R205, R207; spec/95_test_vectors.md sections 2.4, 2.5, P4) -/


theorem test_h32RdStatus : answered (exec .h32RdStatus (h32At .done 0x9747B28C 9 9 0x3F6AFD5B)) = some 0x00000042 := by decide
theorem test_h32RdStatus_block : answered (exec .h32RdStatus (h32At .block 0x9747B28C 9 9 0x3F6AFD5B)) = some 0x00000011 :=
    by decide
theorem test_h32RdSeed : answered (exec .h32RdSeed (h32At .done 0x9747B28C 9 9 0x3F6AFD5B)) = some 0x9747B28C := by decide
theorem test_h32RdLen : answered (exec .h32RdLen (h32At .done 0x9747B28C 9 9 0x3F6AFD5B)) = some 9 := by decide
theorem test_h32RdLenHi : answered (exec .h32RdLenHi (h32At .done 0x9747B28C 9 9 0x3F6AFD5B)) = some 0 := by decide
theorem test_h32RdLenHi_40 :
    answered (exec .h32RdLenHi
      { State.reset with lenW := 40, h32 := { State.reset.h32 with ctl := { Ctl.reset with len :=
          0xFF12345678 } } }) = some 0xFF := by
  decide
theorem test_h32RdDigest0 : answered (exec .h32RdDigest0 (h32At .done 0x9747B28C 9 9 0x3F6AFD5B)) = some 0x3F6AFD5B := by decide

theorem test_x86RdStatus :
    answered (exec .x86RdStatus (x86At .done 0 17 17 0xEB490BBA 0x07412F90 0xD56F0E6F 0xED78FD0E)) = some 0x00000042 := by decide
theorem test_x86RdStatus_block :
    answered (exec .x86RdStatus (x86At .block 0 17 17 0xEB490BBA 0x07412F90 0xD56F0E6F 0xED78FD0E)) = some 0x00000011 := by decide
theorem test_x86RdSeed :
    answered (exec .x86RdSeed (x86At .done 0 17 17 0xEB490BBA 0x07412F90 0xD56F0E6F 0xED78FD0E)) = some 0 := by decide
theorem test_x86RdLen :
    answered (exec .x86RdLen (x86At .done 0 17 17 0xEB490BBA 0x07412F90 0xD56F0E6F 0xED78FD0E)) = some 17 := by decide
theorem test_x86RdLenHi :
    answered (exec .x86RdLenHi (x86At .done 0 17 17 0xEB490BBA 0x07412F90 0xD56F0E6F 0xED78FD0E)) = some 0 := by decide
theorem test_x86RdLenHi_40 :
    answered (exec .x86RdLenHi
      { State.reset with lenW := 40, x86 := { State.reset.x86 with ctl := { Ctl.reset with len :=
          0xFF12345678 } } }) = some 0xFF := by
  decide
theorem test_x86RdDigest0 :
    answered (exec .x86RdDigest0 (x86At .done 0 17 17 0xEB490BBA 0x07412F90 0xD56F0E6F 0xED78FD0E)) = some 0xEB490BBA := by decide
theorem test_x86RdDigest1 :
    answered (exec .x86RdDigest1 (x86At .done 0 17 17 0xEB490BBA 0x07412F90 0xD56F0E6F 0xED78FD0E)) = some 0x07412F90 := by decide
theorem test_x86RdDigest2 :
    answered (exec .x86RdDigest2 (x86At .done 0 17 17 0xEB490BBA 0x07412F90 0xD56F0E6F 0xED78FD0E)) = some 0xD56F0E6F := by decide
theorem test_x86RdDigest3 :
    answered (exec .x86RdDigest3 (x86At .done 0 17 17 0xEB490BBA 0x07412F90 0xD56F0E6F 0xED78FD0E)) = some 0xED78FD0E := by decide

theorem test_x64RdStatus :
    answered (exec .x64RdStatus (x64At .done 1 33 33 0x6570DB95712E056D 0x6E87AA96911F5F9F)) = some 0x00000042 := by decide
theorem test_x64RdStatus_block :
    answered (exec .x64RdStatus (x64At .block 1 33 33 0x6570DB95712E056D 0x6E87AA96911F5F9F)) = some 0x00000011 := by decide
theorem test_x64RdSeed : answered (exec .x64RdSeed (x64At .done 1 33 33 0x6570DB95712E056D 0x6E87AA96911F5F9F)) = some 1 :=
    by decide
theorem test_x64RdLen : answered (exec .x64RdLen (x64At .done 1 33 33 0x6570DB95712E056D 0x6E87AA96911F5F9F)) = some 33 :=
    by decide
theorem test_x64RdLenHi : answered (exec .x64RdLenHi (x64At .done 1 33 33 0x6570DB95712E056D 0x6E87AA96911F5F9F)) = some 0 :=
    by decide
theorem test_x64RdLenHi_40 :
    answered (exec .x64RdLenHi
      { State.reset with lenW := 40, x64 := { State.reset.x64 with ctl := { Ctl.reset with len :=
          0xFF12345678 } } }) = some 0xFF := by
  decide
theorem test_x64RdDigest0 :
    answered (exec .x64RdDigest0 (x64At .done 1 33 33 0x6570DB95712E056D 0x6E87AA96911F5F9F)) = some 0x712E056D := by decide
theorem test_x64RdDigest1 :
    answered (exec .x64RdDigest1 (x64At .done 1 33 33 0x6570DB95712E056D 0x6E87AA96911F5F9F)) = some 0x6570DB95 := by decide
theorem test_x64RdDigest2 :
    answered (exec .x64RdDigest2 (x64At .done 1 33 33 0x6570DB95712E056D 0x6E87AA96911F5F9F)) = some 0x911F5F9F := by decide
theorem test_x64RdDigest3 :
    answered (exec .x64RdDigest3 (x64At .done 1 33 33 0x6570DB95712E056D 0x6E87AA96911F5F9F)) = some 0x6E87AA96 := by decide

/-! ### Steps beyond the table: ignored accesses, reset, the platform, the stop on a misaligned access -/

theorem test_write_status_ignored : runInput (.hostWrite 0x04FFFFFFFF) State.reset = .next State.reset := by rfl
theorem test_write_digest_ignored :
    runInput (.hostWrite 0x6000000000) (x86At .done 0 17 17 1 2 3 4) = .next (x86At .done 0 17 17 1 2 3 4) := by rfl
theorem test_read_reserved : answered (runInput (.hostRead 0xB0) State.reset) = some 0 := by decide
theorem test_read_ctrl : answered (runInput (.hostRead 0x80) State.reset) = some 0 := by decide
theorem test_reset_event :
    (after (runInput .reset (x86At .block 1 33 16 1 2 3 4))).map
      (fun t => (t.x86.ctl.phase, t.x86.ctl.seed, t.x86.ctl.len, t.msgX86)) = some (.idle, 0, 0, ramp 49) := by rfl
theorem test_message_change :
    (after (runInput (.messageByte .h32 3 0xFF) (h32At .block 0 9 0 0))).map
      (fun t => (memRead t.msgH32 3, t.h32.ctl.disturbed)) = some (0xFF, true) := by decide
theorem test_message_change_harmless :
    (after (runInput (.messageByte .h32 9 0xFF) (h32At .block 0 9 0 0))).map (fun t => t.h32.ctl.disturbed) = some false := by
  decide
theorem test_message_outside_space :
    runInput (.messageByte .h32 0x100000000 0xFF) State.reset = .refused .offsetOutsideSpace := by rfl
theorem test_misaligned_read : runInput (.hostRead 0x05) State.reset = .refused .misalignedAccess := by rfl
theorem test_quiescent : step State.reset = .next State.reset := by rfl
theorem test_only_busy_engine_moves :
    h32View (step (h32At .tail 0x9747B28C 9 8 0x26C80C24)) = some (0x84A5E161, 9, .final) := by decide

/-! ### Witnesses: for every obligation with hypotheses, concrete data that meets all of them together, at boundary values -/

/-- A state with a START of H32 (a run of 9 bytes, 4 steps) and enough turns on the schedule, other events between them. -/
def runH32 : State :=
  { h32At .idle 0x9747B28C 9 0 0 with
    inputs := [.hostWrite 0x0000000001, .engineTurn .h32, .hostRead 0x20, .engineTurn .h32, .hostWrite 0x0800000000,
      .engineTurn .x86, .engineTurn .h32, .messageByte .x64 0 1, .engineTurn .h32] }

/-- The same for X86, 17 bytes, 3 steps. -/
def runX86 : State :=
  { x86At .done 0 17 17 1 2 3 4 with
    inputs := [.hostWrite 0x4000000001, .engineTurn .x86, .engineTurn .x86, .hostRead 0x44, .engineTurn .x86] }

/-- The same for X64, 17 bytes, 3 steps. -/
def runX64 : State :=
  { x64At .idle 0 17 0 1 2 with
    inputs := [.hostWrite 0x8000000001, .engineTurn .x64, .hostWrite 0x8C000000FF, .engineTurn .x64, .engineTurn .x64] }

theorem witness_DecodeOfEncode :
    Instr.wellFormed (.x86Start 0xFFFFFFFF) = true ∧ Instr.wellFormed (.h32WrLenHi 0) = true ∧
        Instr.wellFormed .x64Final = true := by
  decide

theorem witness_EncodeOfDecode :
    decode (.write 0x90FFFFFFFF) = .instr (.x64WrLenHi 0xFFFFFFFF) ∧ decode (.read 0xAC) = .instr .x64RdDigest3 ∧
      decode (.select 0b00001) = .instr .h32Block := by decide

theorem witness_HostWriteRows :
    (0x0000000000 : BitVec 40) &&& 0xFF00000001 = 0 ∧ (0x40FFFFFFFE : BitVec 40) &&& 0xFF00000001 = 0x4000000000 ∧
      (0x8000000002 : BitVec 40) &&& 0xFF00000001 = 0x8000000000 ∧ (0x80FFFFFFFF : BitVec 40) &&& 0xFF00000001 = 0x8000000001 ∧
      (0x9000000000 : BitVec 40) &&& 0xFF00000000 = 0x9000000000 := by decide

theorem witness_HostReadRows :
    ∀ A ∈ ([0x00, 0x14, 0x24, 0x40, 0x80, 0xB0, 0xFC] : List (BitVec 8)), A.extractLsb' 0 2 = 0 ∧
      A.toNat ∉ [0x04, 0x08, 0x0C, 0x10, 0x20, 0x44, 0x48, 0x4C, 0x50, 0x60, 0x64,
        0x68, 0x6C, 0x84, 0x88, 0x8C, 0x90, 0xA0, 0xA4, 0xA8, 0xAC] := by decide

theorem witness_SelectorRows :
    (∀ S ∈ ([0b00000, 0b00100, 0b01000, 0b01100, 0b10000, 0b10100] : List (BitVec 5)),
      S.extractLsb' 3 2 ≠ 3 ∧ (S.extractLsb' 0 3 = 0 ∨ S.extractLsb' 0 3 = 4)) ∧
    (∀ S ∈ ([0b11000, 0b11111, 0b00101, 0b10111] : List (BitVec 5)),
      S.extractLsb' 3 2 = 3 ∨ 4 < (S.extractLsb' 0 3).toNat) := by decide

theorem witness_StepRunsDecoded :
    (runH32.inputs = .hostWrite 0x0000000001 :: runH32.inputs.tail ∧ decode (.write 0x0000000001) = .instr (.h32Start 1)) ∧
    (∃ s : State, s.inputs = [.hostRead 0x6C] ∧ decode (.read 0x6C) = .instr .x86RdDigest3) ∧
    (∃ s : State, s.inputs = [.engineTurn .h32] ∧ decode (.select (selector .h32 (s.ctl .h32).phase)) = .instr .h32Tail) ∧
    (∃ s : State, s.inputs = [.engineTurn .x64] ∧ (s.ctl .x64).phase = .done) :=
  ⟨by decide, ⟨{ State.reset with inputs := [.hostRead 0x6C] }, rfl, by decide⟩,
    ⟨{ h32At .tail 0 9 8 0 with inputs := [.engineTurn .h32] }, rfl, by decide⟩,
    ⟨{ x64At .done 0 9 9 0 0 with inputs := [.engineTurn .x64] }, rfl, by decide⟩⟩

theorem witness_PlacedWordRunsNext :
    ((0x90FFFFFFFF : Nat) < 2 ^ 40 ∧ decode (.write (BitVec.ofNat 40 0x90FFFFFFFF)) = .instr (.x64WrLenHi 0xFFFFFFFF)) ∧
    ((0xAC : Nat) < 2 ^ 8 ∧ 0xAC % 4 = 0 ∧ decode (.read (BitVec.ofNat 8 0xAC)) = .instr .x64RdDigest3) ∧
    decode (.select (selector .x64 .final)) = .instr .x64Final := by decide

theorem witness_ReservedAccess :
    (∀ A ∈ ([0x14, 0x18, 0x1C, 0x24, 0x28, 0x2C, 0x30, 0x3C, 0x54, 0x7C, 0x94, 0xB0, 0xBC, 0xC0, 0xFC] : List (BitVec 8)),
      reservedWord A = true) ∧
    (∀ A ∈ ([0x04, 0x20] : List (BitVec 8)), readOnlyRegister .h32 A = true) ∧
    (∀ A ∈ ([0x44, 0x60, 0x64, 0x68, 0x6C] : List (BitVec 8)), readOnlyRegister .x86 A = true) ∧
    (∀ A ∈ ([0x84, 0xA0, 0xA4, 0xA8, 0xAC] : List (BitVec 8)), readOnlyRegister .x64 A = true) := by decide

/-- No register that R37 names is taken for a reserved word. -/
theorem test_reservedWord_named :
    ∀ A ∈ ([0x00, 0x04, 0x08, 0x0C, 0x10, 0x20, 0x40, 0x44, 0x48, 0x4C, 0x50, 0x60, 0x64, 0x68, 0x6C, 0x80, 0x84, 0x88, 0x8C,
      0x90, 0xA0, 0xA4, 0xA8, 0xAC] : List (BitVec 8)), reservedWord A = false := by decide

theorem witness_OnlyStartOrResetEndsDone :
    (0xFFFFFFFE : Word32).getLsbD 0 = false ∧
    (∃ s t : State, step s = .next t ∧ (s.ctl .x86).phase = .done ∧ (t.ctl .x86).phase ≠ .done) ∧
    (∃ s t : State, step s = .next t ∧ (s.ctl .x86).phase ≠ .idle ∧ (t.ctl .x86).phase = .idle) :=
  ⟨by decide, ⟨runX86, _, rfl, by decide, by decide⟩,
    ⟨{ runX86 with inputs := [.reset] }, _, rfl, by decide, by decide⟩⟩

theorem witness_MisalignedAccessRefused :
    ∀ A ∈ ([0x01, 0x02, 0x03, 0xFF] : List (BitVec 8)), A.extractLsb' 0 2 ≠ 0 := by decide

theorem witness_WriteLen :
    ∀ w ∈ [1, 16, 32, 33, 40, 64], ({ State.reset with lenW := w } : State).lenW ≤ 64 ∧
      State.reset.h32.ctl.len.toNat < 2 ^ w ∧ State.reset.x86.ctl.len.toNat < 2 ^ w ∧ State.reset.x64.ctl.len.toNat < 2 ^ w := by
  decide

theorem witness_ReadRegisters :
    ∀ p ∈ ([(1, 1), (32, 0xFFFFFFFF), (33, 0x1FFFFFFFF), (64, 0xFFFFFFFFFFFFFFFF)] : List (Nat × Word64)),
      p.1 ≤ 64 ∧ p.2.toNat < 2 ^ p.1 := by decide

/-- The five words of R204. -/
def statusWords : Phase → Word32
  | .idle => 0x00000000
  | .block => 0x00000011
  | .tail => 0x00000021
  | .final => 0x00000031
  | .done => 0x00000042

theorem witness_ReadStatus :
    statusWords .idle = 0x00000000 ∧ statusWords .block = 0x00000011 ∧ statusWords .tail = 0x00000021 ∧
      statusWords .final = 0x00000031 ∧ statusWords .done = 0x00000042 := by decide

theorem witness_ReadDigest :
    (∃ s : State, s.h32.ctl.phase = .done ∧ s.x86.ctl.phase = .done ∧ s.x64.ctl.phase = .done) ∧
    (∃ s : State, s.h32.ctl.phase ≠ .done ∧ s.x86.ctl.phase ≠ .done ∧ s.x64.ctl.phase ≠ .done) :=
  ⟨⟨{ h32At .done 0 9 9 1 with x86 := (x86At .done 0 17 17 1 2 3 4).x86, x64 := (x64At .done 0 17 17 1 2).x64 }, by decide⟩,
    ⟨h32At .final 0 9 9 1, by decide⟩⟩

theorem witness_StartInitialises : (0x00000001 : Word32).getLsbD 0 = true ∧ (0xFFFFFFFF : Word32).getLsbD 0 = true := by
  decide

/-- A full block ending at the end of the message, and at the top of a 64-bit message space. -/
theorem witness_H32BlockResult :
    ∀ s ∈ [h32At .block 0 9 4 1, h32At .block 0 4 0 1,
        { h32At .block 0 0xFFFFFFFFFFFFFFFF 0xFFFFFFFFFFFFFFF8 1 with lenW := 64 }],
      s.lenW ≤ 64 ∧ s.h32.ctl.lenQ.toNat < 2 ^ s.lenW ∧ s.h32.ctl.off.toNat + 4 ≤ s.h32.ctl.lenQ.toNat := by decide

theorem witness_H32TailResult :
    ∀ s ∈ [h32At .tail 0 8 8 1, h32At .tail 0 9 8 1, h32At .tail 0 11 8 1],
      s.lenW ≤ 64 ∧ s.h32.ctl.lenQ.toNat < 2 ^ s.lenW ∧ s.h32.ctl.lenQ.toNat < s.h32.ctl.off.toNat + 4 := by decide

theorem witness_H32FinalResult : (h32At .final 0 9 9 1).h32.ctl.disturbed = false := by decide

theorem witness_X86BlockResult :
    ∀ s ∈ [x86At .block 0 16 0 1 2 3 4, x86At .block 0 33 16 1 2 3 4,
        { x86At .block 0 0xFFFFFFFFFFFFFFFF 0xFFFFFFFFFFFFFFE0 1 2 3 4 with lenW := 64 }],
      s.lenW ≤ 64 ∧ s.x86.ctl.lenQ.toNat < 2 ^ s.lenW ∧ s.x86.ctl.off.toNat + 16 ≤ s.x86.ctl.lenQ.toNat := by decide

theorem witness_X86TailResult :
    ∀ s ∈ [x86At .tail 0 16 16 1 2 3 4, x86At .tail 0 20 16 1 2 3 4, x86At .tail 0 31 16 1 2 3 4],
      s.lenW ≤ 64 ∧ s.x86.ctl.lenQ.toNat < 2 ^ s.lenW ∧ s.x86.ctl.lenQ.toNat < s.x86.ctl.off.toNat + 16 := by decide

theorem witness_X86FinalResult : (x86At .final 0 17 17 1 2 3 4).x86.ctl.disturbed = false := by decide

theorem witness_X64BlockResult :
    ∀ s ∈ [x64At .block 0 16 0 1 2, x64At .block 0 33 16 1 2,
        { x64At .block 0 0xFFFFFFFFFFFFFFFF 0xFFFFFFFFFFFFFFE0 1 2 with lenW := 64 }],
      s.lenW ≤ 64 ∧ s.x64.ctl.lenQ.toNat < 2 ^ s.lenW ∧ s.x64.ctl.off.toNat + 16 ≤ s.x64.ctl.lenQ.toNat := by decide

theorem witness_X64TailResult :
    ∀ s ∈ [x64At .tail 0 16 16 1 2, x64At .tail 0 24 16 1 2, x64At .tail 0 25 16 1 2, x64At .tail 0 31 16 1 2],
      s.lenW ≤ 64 ∧ s.x64.ctl.lenQ.toNat < 2 ^ s.lenW ∧ s.x64.ctl.lenQ.toNat < s.x64.ctl.off.toNat + 16 := by decide

theorem witness_X64FinalResult : (x64At .final 0 17 17 1 2).x64.ctl.disturbed = false := by decide

/-- Clause by clause: a change below `len_q` of a busy run, a change at `len_q`, a START after a marked run, FINAL of a marked
run of each engine. -/
theorem witness_DisturbedRun :
    (∃ s : State, (8 : Word64).toNat < 2 ^ s.lenW ∧ busyBit (s.ctl .h32).phase = true ∧
      (8 : Word64).toNat < (s.ctl .h32).lenQ.toNat ∧ memRead (s.msg .h32) (8 : Word64).toNat ≠ 0xFF) ∧
    (∃ s : State, (9 : Word64).toNat < 2 ^ s.lenW ∧ (s.ctl .h32).lenQ.toNat ≤ (9 : Word64).toNat) ∧
    (∃ s t : State, (1 : Word32).getLsbD 0 = true ∧ busyBit (s.ctl .h32).phase = false ∧ (s.ctl .h32).disturbed = true ∧
      runInput (.hostWrite (bank .h32 ++ (1 : Word32))) s = .next t) ∧
    (∃ s : State, s.h32.ctl.disturbed = true ∧ s.x86.ctl.disturbed = true ∧ s.x64.ctl.disturbed = true) :=
  ⟨⟨h32At .block 0 9 4 1, by decide⟩, ⟨h32At .block 0 9 4 1, by decide⟩,
    ⟨{ State.reset with h32 := { ctl := { ctlAt .done 0 9 9 with disturbed := true }, h1 := 1 } }, _, by decide, by decide,
      by decide, rfl⟩,
    ⟨{ State.reset with
        h32 := { ctl := { ctlAt .final 0 9 9 with disturbed := true }, h1 := 1 }
        x86 := { ctl := { ctlAt .final 0 9 9 with disturbed := true }, h1 := 1, h2 := 2, h3 := 3, h4 := 4 }
        x64 := { ctl := { ctlAt .final 0 9 9 with disturbed := true }, h1 := 1, h2 := 2 } }, by decide⟩⟩

theorem witness_Rotl32MovesBits : ∀ r ∈ [0, 1, 31], r < 32 := by decide

theorem witness_Rotl64MovesBits : ∀ r ∈ [0, 1, 63], r < 64 := by decide

theorem witness_KMixesFollowTheirLines : (∀ r ∈ [0, 15, 31], r < 32) ∧ ∀ r ∈ [0, 33, 63], r < 64 := by decide

theorem witness_RotatesLoseNothing : (∀ r ∈ [0, 31], r < 32) ∧ ∀ r ∈ [0, 63], r < 64 := by decide

theorem witness_MixersAreBijections :
    (15 < 32 ∧ (0xCC9E2D51 : Word32).getLsbD 0 = true ∧ (0x1B873593 : Word32).getLsbD 0 = true) ∧
      (33 < 64 ∧ (0x4CF5AD432745937F : Word64).getLsbD 0 = true ∧ (0x87C37B91114253D5 : Word64).getLsbD 0 = true) := by decide

/-- Three bytes of a four-byte word; a word that ends at the top of the space; no byte at all. -/
theorem witness_MessageWordsAreLittleEndian :
    ∀ p ∈ ([(32, 8, 3), (32, 2 ^ 32 - 4, 4), (64, 2 ^ 32, 0)] : List (Nat × Nat × Nat)),
      8 * p.2.2 ≤ p.1 ∧ p.2.1 + p.2.2 ≤ 2 ^ (h32At .tail 0 9 8 1).lenW := by decide

theorem witness_UnreadBytesDoNotMatter :
    ∃ (s t : State) (m : Memory), s.SequencersOk ∧ runEngine .h32 s = .next t ∧ m ≠ s.msg .h32 ∧
      ∀ k, (s.ctl .h32).off.toNat ≤ k → k < (s.ctl .h32).lenQ.toNat → memRead m k = memRead (s.msg .h32) k := by
  refine ⟨h32At .tail 0 9 8 1, _, [(8, 9)], by decide, rfl, by decide, fun k h1 h2 => ?_⟩
  have hk : k = 8 := by
    have h1 : 8 ≤ k := h1
    have h2 : k < 9 := h2
    omega
  subst hk
  decide

theorem witness_OnlyThePlatformWritesMessages :
    (∃ s t : State, s.MessagesOk ∧ step s = .next t ∧ s.inputs = [.messageByte .x86 0xFFFFFFFF 5]) ∧
    (∃ s t : State, s.MessagesOk ∧ step s = .next t ∧ ∀ i rest, s.inputs = i :: rest → i.changesMessage .h32 = false) :=
  ⟨⟨{ State.reset with inputs := [.messageByte .x86 0xFFFFFFFF 5] }, _, by decide, rfl, rfl⟩,
    ⟨runH32, _, by decide, rfl, fun i rest h => by cases h; decide⟩⟩

theorem witness_StepKeepsMessagesOk : ∃ s t : State, s.MessagesOk ∧ step s = .next t ∧ t.msgX86 = [(0xFFFFFFFF, 5)] :=
  ⟨{ State.reset with inputs := [.messageByte .x86 0xFFFFFFFF 5] }, _, by decide, rfl, by decide⟩

theorem witness_CanonicalMessagesAreEqual :
    Memory.wf [(3, 1), (7, 2)] = true ∧ Memory.wf (memWrite (memWrite [] 7 2) 3 1) = true ∧
      ∀ k, memRead [(3, 1), (7, 2)] k = memRead (memWrite (memWrite [] 7 2) 3 1) k :=
  ⟨by decide, by decide, fun _ => rfl⟩

theorem witness_ResetEvent : ∃ s : State, s.inputs = [.reset] ∧ s.x86.ctl.phase = .block :=
  ⟨{ x86At .block 1 33 16 1 2 3 4 with inputs := [.reset] }, rfl, rfl⟩

theorem witness_StepKeepsSequencersOk :
    (∃ s t : State, s.SequencersOk ∧ step s = .next t ∧ s.h32.ctl.phase = .block) ∧
    (∃ s t : State, s.SequencersOk ∧ step s = .next t ∧ s.x86.ctl.phase = .tail) ∧
    (∃ s t : State, s.SequencersOk ∧ step s = .next t ∧ s.x64.ctl.phase = .final) :=
  ⟨⟨h32At .block 0 9 4 1, _, by decide, rfl, rfl⟩, ⟨x86At .tail 0 33 32 1 2 3 4, _, by decide, rfl, rfl⟩,
    ⟨x64At .final 0 33 33 1 2, _, by decide, rfl, rfl⟩⟩

theorem witness_AdmittedStepsGoOn : runH32.admitted = true ∧ State.reset.admitted = true := by decide

theorem witness_SeedAndLenChangeOnlyByWrites :
    (∃ s t : State, step s = .next t ∧ (t.ctl .x64).seed ≠ (s.ctl .x64).seed) ∧
    (∃ s t : State, step s = .next t ∧ (t.ctl .x64).len ≠ (s.ctl .x64).len) :=
  ⟨⟨{ State.reset with inputs := [.hostWrite 0x8800000009] }, _, rfl, by decide⟩,
    ⟨{ State.reset with inputs := [.hostWrite 0x8C00000009] }, _, rfl, by decide⟩⟩

theorem witness_DigestStaysUntilStartOrReset :
    ∃ s t : State, step s = .next t ∧ (s.ctl .x86).phase = .done ∧
      ∀ i rest, s.inputs = i :: rest → i.starts .x86 = false ∧ i.isReset = false :=
  ⟨{ x86At .done 0 17 17 1 2 3 4 with inputs := [.hostWrite 0x4000000002] }, _, rfl, rfl, fun i rest h => by cases h; decide⟩

theorem witness_StartForgetsTheEarlierRun :
    (1 : Word32).getLsbD 0 = true ∧ busyBit .idle = false ∧ busyBit .done = false ∧
      busyBit runX86.h32.ctl.phase = false ∧ busyBit runX86.x86.ctl.phase = false ∧ busyBit runX86.x64.ctl.phase = false := by
  decide

theorem witness_EngineTurnTouchesItsEngineOnly : ∃ t, runEngine .x86 (x86At .block 1 33 16 1 2 3 4) = .next t :=
  ⟨_, rfl⟩

theorem witness_EngineTurnsCommute :
    ∃ s t u t' u' : State, Engine.h32 ≠ Engine.x64 ∧ runEngine .h32 s = .next t ∧ runEngine .x64 t = .next u ∧
      runEngine .x64 s = .next t' ∧ runEngine .h32 t' = .next u' ∧ busyBit s.h32.ctl.phase = true ∧
      busyBit s.x64.ctl.phase = true :=
  ⟨{ h32At .block 0 9 4 1 with x64 := (x64At .tail 0 17 16 1 2).x64, msgX64 := ramp 17 }, _, _, _, _, by decide, rfl, rfl,
      rfl, rfl,
    rfl, rfl⟩

theorem witness_PortAccessTouchesOneEngine :
    ∃ s t u : State, runInput (.hostWrite 0x8000000001) s = .next t ∧ runInput (.hostRead 0x20) s = .next u :=
  ⟨State.reset, _, _, rfl, rfl⟩

theorem witness_ExhaustedScheduleRunsABusyEngine :
    (State.reset.inputs = [] ∧ ∀ e, busyBit (State.reset.ctl e).phase = false) ∧
    ((h32At .block 0 9 4 1).inputs = [] ∧ ∃ e, busyBit ((h32At .block 0 9 4 1).ctl e).phase = true) :=
  ⟨⟨rfl, fun e => by cases e <;> rfl⟩, ⟨rfl, .h32, rfl⟩⟩

theorem witness_BusyEnginesFinish :
    ∃ s : State, s.SequencersOk ∧ s.inputs = [] ∧ busyBit s.h32.ctl.phase = true ∧ busyBit s.x64.ctl.phase = true :=
  ⟨{ h32At .block 0 9 4 1 with x64 := (x64At .tail 0 17 16 1 2).x64 }, by decide, rfl, rfl, rfl⟩

/-- At the boundary from both sides: enough turns for the run, and one turn short of it. -/
theorem witness_RunTakesItsStepsExactly :
    (runH32.SequencersOk ∧ runH32.admitted = true ∧ busyBit (runH32.ctl .h32).phase = false ∧
      runH32.inputs = .hostWrite 0x0000000001 :: runH32.inputs.tail ∧ (Input.hostWrite 0x0000000001).starts .h32 = true ∧
      (∀ i ∈ runH32.inputs.tail, i.starts .h32 = false ∧ i.isReset = false) ∧
      runH32.inputs.tail.count (.engineTurn .h32) = stepsOfRun .h32 (runH32.ctl .h32).len.toNat) ∧
    ((∀ i ∈ runH32.inputs.tail.dropLast, i.starts .h32 = false ∧ i.isReset = false) ∧
      runH32.inputs.tail.dropLast.count (.engineTurn .h32) + 1 = stepsOfRun .h32 (runH32.ctl .h32).len.toNat) := by decide

theorem witness_H32RunComputesHash32 :
    runH32.SequencersOk ∧ runH32.admitted = true ∧ busyBit runH32.h32.ctl.phase = false ∧
      runH32.inputs = .hostWrite 0x0000000001 :: runH32.inputs.tail ∧ (Input.hostWrite 0x0000000001).starts .h32 = true ∧
      (∀ i ∈ runH32.inputs.tail, i.leavesRun .h32 = true) ∧
      stepsOfRun .h32 runH32.h32.ctl.len.toNat ≤ runH32.inputs.tail.count (.engineTurn .h32) := by decide

theorem witness_X86RunComputesHash128X86 :
    runX86.SequencersOk ∧ runX86.admitted = true ∧ busyBit runX86.x86.ctl.phase = false ∧
      runX86.inputs = .hostWrite 0x4000000001 :: runX86.inputs.tail ∧ (Input.hostWrite 0x4000000001).starts .x86 = true ∧
      (∀ i ∈ runX86.inputs.tail, i.leavesRun .x86 = true) ∧
      stepsOfRun .x86 runX86.x86.ctl.len.toNat ≤ runX86.inputs.tail.count (.engineTurn .x86) := by decide

theorem witness_X64RunComputesHash128X64 :
    runX64.SequencersOk ∧ runX64.admitted = true ∧ busyBit runX64.x64.ctl.phase = false ∧
      runX64.inputs = .hostWrite 0x8000000001 :: runX64.inputs.tail ∧ (Input.hostWrite 0x8000000001).starts .x64 = true ∧
      (∀ i ∈ runX64.inputs.tail, i.leavesRun .x64 = true) ∧
      stepsOfRun .x64 runX64.x64.ctl.len.toNat ≤ runX64.inputs.tail.count (.engineTurn .x64) := by decide

end Sys2Proof.Tests
end

section
/-! PROOFS. The status bits and the state after reset (spec/10_state.md R29, R33, R40, R43). -/

namespace Sys2Proof.Machine

/-! ### The fields of the STATUS word (R29, R33) -/

theorem busyBit_eq_true_iff (p : Phase) : busyBit p = true ↔ p = .block ∨ p = .tail ∨ p = .final := by
  cases p <;> simp [busyBit]

theorem doneBit_eq_true_iff (p : Phase) : doneBit p = true ↔ p = .done := by
  cases p <;> simp [doneBit]

@[simp] theorem statusWord_getLsbD_zero (p : Phase) : (statusWord p).getLsbD 0 = busyBit p := by
  cases p <;> decide

@[simp] theorem statusWord_getLsbD_one (p : Phase) : (statusWord p).getLsbD 1 = doneBit p := by
  cases p <;> decide

@[simp] theorem statusWord_phaseField (p : Phase) : (statusWord p).extractLsb' 4 3 = phaseCode p := by
  cases p <;> decide

/-- Bits 3, 2 and 31 to 7 of STATUS are reserved. -/
@[simp] theorem statusWord_reservedBits (p : Phase) : statusWord p &&& 0xFFFFFF8C = 0 := by
  cases p <;> decide

@[simp] theorem statusWord_idle : statusWord .idle = 0 := by decide

/-! ### Reads of STATUS (R204) -/

theorem exec_h32RdStatus (s : State) : exec .h32RdStatus s = .next (readStatus .h32 s) := rfl
theorem exec_x86RdStatus (s : State) : exec .x86RdStatus s = .next (readStatus .x86 s) := rfl
theorem exec_x64RdStatus (s : State) : exec .x64RdStatus s = .next (readStatus .x64 s) := rfl

theorem readStatus_of_idle {s : State} {e : Engine} (h : (s.ctl e).phase = .idle) :
    readStatus e s = { s with answers := 0 :: s.answers } := by
  rw [readStatus, h, statusWord_idle, State.answer]

theorem doneWire_of_idle {s : State} {e : Engine} (h : (s.ctl e).phase = .idle) : s.doneWire e = false := by
  rw [State.doneWire, h, doneBit]

/-! ### The state after reset (R40) -/

@[simp] theorem reset_ctl (e : Engine) : State.reset.ctl e = Ctl.reset := by cases e <;> rfl

theorem reset_phase (e : Engine) : (State.reset.ctl e).phase = .idle := by rw [reset_ctl, Ctl.reset]

theorem reset_doneWire (e : Engine) : State.reset.doneWire e = false := doneWire_of_idle (reset_phase e)

theorem reset_readStatus (e : Engine) :
    readStatus e State.reset = { State.reset with answers := 0 :: State.reset.answers } :=
  readStatus_of_idle (reset_phase e)

/-- Settles O16: each clause is one field of the STATUS word, and the wire is by definition the DONE bit of the phase. -/
theorem statusBits : Obligations.StatusBits := by
  intro s e
  refine ⟨?busy, ?done, ?wire, statusWord_phaseField _, statusWord_reservedBits _⟩
  case busy => rw [statusWord_getLsbD_zero, busyBit_eq_true_iff]
  case done => rw [statusWord_getLsbD_one, doneBit_eq_true_iff]
  case wire => rw [statusWord_getLsbD_one, State.doneWire]

/-- Settles O40: every engine holds `Ctl.reset`, whose phase IDLE gives the STATUS word 0 and the low wire. -/
theorem resetState : Obligations.ResetState := by
  exact
    ⟨reset_phase .h32, rfl, rfl, reset_doneWire .h32, by rw [exec_h32RdStatus, reset_readStatus],
      reset_phase .x86, rfl, rfl, reset_doneWire .x86, by rw [exec_x86RdStatus, reset_readStatus],
      reset_phase .x64, rfl, rfl, reset_doneWire .x64, by rw [exec_x64RdStatus, reset_readStatus]⟩

end Sys2Proof.Machine
end

section
/-! PROOFS. Message words as numbers (spec/20_memory.md R62, R63). -/

namespace Sys2Proof.Machine

/-- The word that fits is the number whose digits to the base 256 are its bytes, the first the least significant (R62):
no byte is shifted out, and a byte stands below all that follow it. -/
theorem leWord_toNat (w : Nat) (bs : List Byte) (h : 8 * bs.length ≤ w) :
    (leWord w bs).toNat = Nat.ofDigits 256 (bs.map BitVec.toNat) := by
  induction bs with
  | nil => simp
  | cons b bs ih =>
    rw [List.length_cons] at h
    have hb : b.toNat < 2 ^ 8 := b.isLt
    have hbw : b.toNat < 2 ^ w := hb.trans_le (Nat.pow_le_pow_right (by decide) (by omega))
    have hbs : (leWord w bs).toNat < 2 ^ (8 * bs.length) := by
      rw [ih (by omega), Nat.pow_mul]
      simpa using Nat.ofDigits_lt_base_pow_length (b := 256) (l := bs.map BitVec.toNat) (by decide) fun d hd => by
        obtain ⟨c, -, rfl⟩ := List.mem_map.mp hd
        exact c.isLt
    have hshift : (leWord w bs).toNat <<< 8 < 2 ^ w :=
      calc (leWord w bs).toNat <<< 8 = (leWord w bs).toNat * 2 ^ 8 := Nat.shiftLeft_eq _ _
        _ < 2 ^ (8 * bs.length) * 2 ^ 8 := Nat.mul_lt_mul_of_pos_right hbs (by decide)
        _ = 2 ^ (8 * (bs.length + 1)) := (Nat.pow_add 2 _ 8).symm
        _ ≤ 2 ^ w := Nat.pow_le_pow_right (by decide) h
    calc (leWord w (b :: bs)).toNat
        = (leWord w bs).toNat <<< 8 ||| b.toNat := by
          rw [leWord_cons, BitVec.toNat_or, BitVec.toNat_setWidth, BitVec.toNat_shiftLeft, Nat.mod_eq_of_lt hbw,
            Nat.mod_eq_of_lt hshift, Nat.or_comm]
      _ = b.toNat + 256 * (leWord w bs).toNat := by
          rw [← Nat.shiftLeft_add_eq_or_of_lt hb, Nat.shiftLeft_eq]; omega
      _ = Nat.ofDigits 256 ((b :: bs).map BitVec.toNat) := by
          rw [ih (by omega), List.map_cons, Nat.ofDigits_cons]

/-- Inside the space, byte `off + j` of the message is digit `j` of the bytes from `off` on. -/
theorem ofDigits_msgBytes (s : State) (e : Engine) (off n : Nat) (h : off + n ≤ 2 ^ s.lenW) :
    Nat.ofDigits 256 ((msgBytes s e off n).map BitVec.toNat) =
      ∑ j ∈ Finset.range n, (memRead (s.msg e) (off + j)).toNat * 2 ^ (8 * j) := by
  induction n generalizing off with
  | zero => rfl
  | succ n ih =>
    have hterm : ∀ j, (memRead (s.msg e) (off + (j + 1))).toNat * 2 ^ (8 * (j + 1)) =
        256 * ((memRead (s.msg e) (off + 1 + j)).toNat * 2 ^ (8 * j)) := fun j => by
      rw [Nat.add_assoc off 1 j, Nat.add_comm 1 j]; ring
    rw [msgBytes_succ, List.map_cons, Nat.ofDigits_cons, ih (off + 1) (by omega), msgByte_of_lt s e off (by omega),
      Finset.sum_range_succ', Finset.sum_congr rfl fun j _ => hterm j, ← Finset.mul_sum]
    simp [Nat.add_comm]

/-- Settles O35: the word is the number with the message bytes as its digits to the base 256, and so the sum. -/
theorem messageWordsAreLittleEndian : Obligations.MessageWordsAreLittleEndian := by
  intro s e w off n hw hspace
  rw [memReadWord, leWord_toNat w _ (by rwa [msgBytes_length]), ofDigits_msgBytes s e off n hspace]

end Sys2Proof.Machine
end

section
/-! PROOFS. The sequencer map (spec/30_encoding.md R93, R94, R98 d). -/

namespace Sys2Proof.Machine

/-- Every value of `ENG` but 3 is the number of an engine (R93). -/
theorem exists_engCode_eq {g : BitVec 2} (h : g ≠ 3) : ∃ e : Engine, engCode e = g := by
  have hg : g = 0 ∨ g = 1 ∨ g = 2 := by bv_omega
  rcases hg with rfl | rfl | rfl
  · exact ⟨.h32, rfl⟩
  · exact ⟨.x86, rfl⟩
  · exact ⟨.x64, rfl⟩

/-- A selector with the fields `ENG` and `PHASE` of an engine in a phase is that engine's selector (R93). -/
theorem eq_selector {S : BitVec 5} {e : Engine} {p : Phase} (he : engCode e = S.extractLsb' 3 2)
    (hp : S.extractLsb' 0 3 = phaseCode p) : S = selector e p := by
  have hsplit : S.extractLsb' 3 2 ++ S.extractLsb' 0 3 = S.extractLsb' 0 5 :=
    BitVec.extractLsb'_append_extractLsb'_eq_extractLsb' rfl
  rw [selector, he, ← hp, hsplit, BitVec.extractLsb'_eq_self]

theorem decode_selector_idle (e : Engine) : decode (.select (selector e .idle)) = .noStep := by
  cases e <;> rfl

theorem decode_selector_done (e : Engine) : decode (.select (selector e .done)) = .noStep := by
  cases e <;> rfl

/-- `ENG` 3 and `PHASE` 5 to 7 name nothing: in every other row of the map `ENG` is at most 2 and `PHASE` at most 4. -/
theorem decode_select_unnamed {S : BitVec 5} (h : S.extractLsb' 3 2 = 3 ∨ 4 < (S.extractLsb' 0 3).toNat) :
    decode (.select S) = .unnamedSelector := by
  have h' : (S.extractLsb' 3 2).toNat = 3 ∨ 4 < (S.extractLsb' 0 3).toNat := h.imp_left (congrArg BitVec.toNat)
  rw [decode, decodeSelect]
  split
  case h_16 => rfl
  all_goals omega

/-- Settles O5: the nine named rows are decoded one by one; `PHASE` 0 and 4 of an engine are its selectors in IDLE and
DONE; and no row has `ENG` 3 or `PHASE` above 4. -/
theorem selectorRows : Obligations.SelectorRows := by
  refine ⟨rfl, rfl, rfl, rfl, rfl, rfl, rfl, rfl, rfl, ?noStep, fun S => decode_select_unnamed⟩
  case noStep =>
    intro S heng hphase
    obtain ⟨e, he⟩ := exists_engCode_eq heng
    rcases hphase with hidle | hdone
    · rw [eq_selector he (p := .idle) hidle, decode_selector_idle]
    · rw [eq_selector he (p := .done) hdone, decode_selector_done]

end Sys2Proof.Machine
end

section
/-! PROOFS. Rotates, finalizers and the k-mix (spec/40_primitives.md R120, R121, R123 to R126). -/

namespace Sys2Proof.Machine

/-! ### The rotates are the library's (R120, R121) -/

theorem rotl32_eq_rotateLeft (x : Word32) {r : Nat} (hr : r < 32) : rotl32 x r = x.rotateLeft r := by
  rw [BitVec.rotateLeft_def, Nat.mod_eq_of_lt hr, rotl32]

theorem rotl64_eq_rotateLeft (x : Word64) {r : Nat} (hr : r < 64) : rotl64 x r = x.rotateLeft r := by
  rw [BitVec.rotateLeft_def, Nat.mod_eq_of_lt hr, rotl64]

/-- Bit `i` either stays below the top and moves up by `r`, or passes the top and comes back in at the bottom. -/
theorem getLsbD_rotateLeft_add_mod {w r i : Nat} (x : BitVec w) (hr : r < w) (hi : i < w) :
    (x.rotateLeft r).getLsbD ((i + r) % w) = x.getLsbD i := by
  rw [BitVec.getLsbD_rotateLeft_of_le hr]
  by_cases hwrap : i + r < w
  · simp [Nat.mod_eq_of_lt hwrap, hwrap]
  · have hmod : (i + r) % w = i + r - w := by
      rw [Nat.mod_eq_sub_mod (by omega), Nat.mod_eq_of_lt (by omega)]
    have hlow : i + r - w < r := by omega
    have hback : w - r + (i + r - w) = i := by omega
    simp [hmod, hlow, hback]

@[simp] theorem rotl32_zero_left (r : Nat) : rotl32 0 r = 0 := by
  simp [rotl32]

@[simp] theorem rotl64_zero_left (r : Nat) : rotl64 0 r = 0 := by
  simp [rotl64]

/-! ### The k-mixes as products of natural numbers (R125, R126) -/

@[simp] theorem kmix32_zero_left (a : Word32) (r : Nat) (b : Word32) : kmix32 0 a r b = 0 := by
  rw [kmix32, zero_mul, rotl32_zero_left, zero_mul]

@[simp] theorem kmix64_zero_left (a : Word64) (r : Nat) (b : Word64) : kmix64 0 a r b = 0 := by
  rw [kmix64, zero_mul, rotl64_zero_left, zero_mul]

theorem ofNat_toNat_mul_toNat {w : Nat} (k a : BitVec w) : BitVec.ofNat w (k.toNat * a.toNat) = k * a := by
  rw [BitVec.ofNat_mul, BitVec.ofNat_toNat, BitVec.ofNat_toNat, BitVec.setWidth_eq, BitVec.setWidth_eq]

theorem kmix32_toNat (k a : Word32) (r : Nat) (b : Word32) :
    (kmix32 k a r b).toNat =
      ((rotl32 (BitVec.ofNat 32 (k.toNat * a.toNat)) r).toNat * b.toNat) % 2 ^ 32 := by
  rw [ofNat_toNat_mul_toNat, kmix32, BitVec.toNat_mul]

theorem kmix64_toNat (k a : Word64) (r : Nat) (b : Word64) :
    (kmix64 k a r b).toNat =
      ((rotl64 (BitVec.ofNat 64 (k.toNat * a.toNat)) r).toNat * b.toNat) % 2 ^ 64 := by
  rw [ofNat_toNat_mul_toNat, kmix64, BitVec.toNat_mul]

/-- Settles O29: the formula is the definition, and below the width it is the library's rotate, whose bits are known. -/
theorem rotl32MovesBits : Obligations.Rotl32MovesBits := by
  refine ⟨fun x r hr => ⟨rfl, fun i hi => ?bit⟩, ?examples⟩
  case bit => rw [rotl32_eq_rotateLeft x hr, getLsbD_rotateLeft_add_mod x hr hi]
  case examples => decide

/-- Settles O30: the formula is the definition, and below the width it is the library's rotate, whose bits are known. -/
theorem rotl64MovesBits : Obligations.Rotl64MovesBits := by
  refine ⟨fun x r hr => ⟨rfl, fun i hi => ?bit⟩, ?examples⟩
  case bit => rw [rotl64_eq_rotateLeft x hr, getLsbD_rotateLeft_add_mod x hr hi]
  case examples => decide

/-- Settles O31: the lines are those of the definitions, and the worked examples are evaluated. -/
theorem finalizersFollowTheirLines : Obligations.FinalizersFollowTheirLines := by
  refine ⟨fun _ => rfl, fun _ => rfl, ?examples⟩
  case examples => decide

/-- Settles O32: multiplying words is multiplying their numbers and reducing, which the conversion to a word of the
width does by itself; 0 stays 0 through the product, the rotate and the product; the worked examples are evaluated. -/
theorem kMixesFollowTheirLines : Obligations.KMixesFollowTheirLines := by
  refine ⟨fun k a b r _ => ⟨kmix32_zero_left a r b, kmix32_toNat k a r b⟩,
    fun k a b r _ => ⟨kmix64_zero_left a r b, kmix64_toNat k a r b⟩, ?examples⟩
  case examples => decide

end Sys2Proof.Machine
end

section
/-! PROOFS. START of the three engines (spec/41_hash32.md R140, spec/42_hash128_x86.md R160, spec/43_hash128_x64.md R180,
spec/44_host_interface.md R200, R201). -/

namespace Sys2Proof.Machine

/-! ### When a START is accepted -/

theorem busyBit_eq_false_iff (p : Phase) : busyBit p = false ↔ p = .idle ∨ p = .done := by
  cases p <;> simp [busyBit]

/-- A data word with bit 0 set is accepted exactly in IDLE and DONE (R200, R201). -/
theorem startAccepted_iff {D : Word32} (hD : D.getLsbD 0 = true) (p : Phase) :
    (D.getLsbD 0 && !busyBit p) = true ↔ p = .idle ∨ p = .done := by
  rw [hD, Bool.true_and, Bool.not_eq_true', busyBit_eq_false_iff]

/-! ### What each START does -/

theorem exec_h32Start {D : Word32} (hD : D.getLsbD 0 = true) (s : State) :
    exec (.h32Start D) s = .next
      (if s.h32.ctl.phase = .idle ∨ s.h32.ctl.phase = .done then
        { s with h32 := { ctl := s.h32.ctl.start .h32, h1 := s.h32.ctl.seed } }
       else s) := by
  rw [apply_ite Host.Outcome.next]
  exact if_congr (startAccepted_iff hD _) rfl rfl

theorem exec_x86Start {D : Word32} (hD : D.getLsbD 0 = true) (s : State) :
    exec (.x86Start D) s = .next
      (if s.x86.ctl.phase = .idle ∨ s.x86.ctl.phase = .done then
        { s with x86 := x86Of (s.x86.ctl.start .x86) ⟨s.x86.ctl.seed, s.x86.ctl.seed, s.x86.ctl.seed, s.x86.ctl.seed⟩ }
       else s) := by
  rw [apply_ite Host.Outcome.next]
  exact if_congr (startAccepted_iff hD _) rfl rfl

theorem exec_x64Start {D : Word32} (hD : D.getLsbD 0 = true) (s : State) :
    exec (.x64Start D) s = .next
      (if s.x64.ctl.phase = .idle ∨ s.x64.ctl.phase = .done then
        { s with
          x64 := x64Of (s.x64.ctl.start .x64) ⟨s.x64.ctl.seed.setWidth 64, s.x64.ctl.seed.setWidth 64⟩ }
       else s) := by
  rw [apply_ite Host.Outcome.next]
  exact if_congr (startAccepted_iff hD _) rfl rfl

/-- Settles O18: a START is accepted exactly in IDLE and DONE, and there the control part takes the fields of `Ctl.start`,
whose phase is chosen with the block size of the engine. -/
theorem startInitialises : Obligations.StartInitialises := by
  intro s D hD
  exact ⟨exec_h32Start hD s, exec_x86Start hD s, exec_x64Start hD s⟩

end Sys2Proof.Machine
end

section
/-! PROOFS. The sequencer operations of H32 (spec/41_hash32.md R141 to R143). -/

namespace Sys2Proof.Machine

/-! ### The sequencer's part, for any engine (R26, R27) -/

/-- With a full block left the offset does not wrap, so it moves by the block size and the phase follows what is left. -/
theorem afterBlock_of_le {c : Ctl} (e : Engine) {lenW : Nat} (hw : lenW ≤ 64) (hq : c.lenQ.toNat < 2 ^ lenW)
    (h : c.off.toNat + blockSize e ≤ c.lenQ.toNat) :
    c.afterBlock e lenW =
      { c with
        off := c.off + BitVec.ofNat 64 (blockSize e)
        phase := blockOrTail e (c.lenQ.toNat - (c.off.toNat + blockSize e)) } := by
  obtain ⟨htrunc, hoff⟩ := off_add_of_le hw hq h
  simp only [Ctl.afterBlock, htrunc, hoff]

/-- A word of the tail receives no byte exactly where the bytes left end at or before its first. -/
theorem laneCount_eq_zero_iff {n : Nat} (hn : 0 < n) (r i : Nat) : laneCount n r i = 0 ↔ r ≤ n * i := by
  rw [laneCount]
  omega

/-- An accumulator changes in TAIL exactly where its word received a byte (R142, R162, R182). -/
theorem ite_laneCount {α : Type} {n : Nat} (hn : 0 < n) (r i : Nat) (kept absorbed : α) :
    (if laneCount n r i = 0 then kept else absorbed) = if n * i < r then absorbed else kept := by
  rw [← ite_not]
  exact if_congr (by rw [laneCount_eq_zero_iff hn, Nat.not_le]) rfl rfl

/-- `trunc_32(len_q)` is the length modulo `2^32` (R143, R163, D5). -/
theorem finalLen32_eq_ofNat (c : Ctl) : finalLen32 c = BitVec.ofNat 32 (c.lenQ.toNat % 2 ^ 32) := by
  apply BitVec.eq_of_toNat_eq
  rw [finalLen32, BitVec.toNat_setWidth, BitVec.toNat_ofNat, Nat.mod_mod]

/-! ### H32's operations -/

theorem exec_h32Block (s : State) :
    exec .h32Block s = .next
      { s with
        h32 := { ctl := s.h32.ctl.afterBlock .h32 s.lenW, h1 := h32Round s.h32.h1 (blockWord 32 4 s .h32 0) } } := rfl

theorem exec_h32Tail (s : State) :
    exec .h32Tail s = .next
      { s with
        h32 :=
          { ctl := s.h32.ctl.afterTail
            h1 := if laneCount 4 s.h32.ctl.rest 0 = 0 then s.h32.h1
              else h32Absorb s.h32.h1 (tailWord 32 4 s .h32 0) } } := rfl

theorem exec_h32Final_of_undisturbed {s : State} (h : s.h32.ctl.disturbed = false) :
    exec .h32Final s = .next
      { s with h32 := { ctl := s.h32.ctl.afterFinal, h1 := h32Finish s.h32.h1 (finalLen32 s.h32.ctl) } } := by
  simp [exec, execH32Final, h]

/-- Fewer than four bytes are left, so the top byte of H32's tail word is absent, hence 0 (R142). -/
theorem h32_tailWord {s : State} (hq : s.h32.ctl.lenQ.toNat < 2 ^ s.lenW)
    (h : s.h32.ctl.lenQ.toNat < s.h32.ctl.off.toNat + 4) :
    tailWord 32 4 s .h32 0 = 0#8 ++ s.tailByte .h32 2 ++ s.tailByte .h32 1 ++ s.tailByte .h32 0 := by
  have hend : s.tailByte .h32 3 = 0#8 := tailByte_of_end s .h32 3 (Nat.le_of_lt_succ h)
  rw [← hend]
  exact tailWord_four s .h32 0 hq

/-- Settles O19: the offset does not wrap, and the block's word is its four bytes with the first lowest. -/
theorem h32BlockResult : Obligations.H32BlockResult := by
  intro s hw hq hfull
  rw [exec_h32Block, afterBlock_of_le .h32 hw hq hfull, blockWord_four s .h32 0 hq hfull]
  rfl

/-- Settles O20: the tail's word is its three bytes below a zero, and it is absorbed exactly where a byte is left. -/
theorem h32TailResult : Obligations.H32TailResult := by
  intro s _ hq hshort
  rw [exec_h32Tail, ite_laneCount (by decide), h32_tailWord hq hshort]
  rfl

/-- Settles O21: the lines are those of `fmix32` on the accumulator xored with the length modulo `2^32`. -/
theorem h32FinalResult : Obligations.H32FinalResult := by
  intro s hundisturbed
  rw [exec_h32Final_of_undisturbed hundisturbed, finalLen32_eq_ofNat]
  rfl

end Sys2Proof.Machine
end

section
/-! PROOFS. The sequencer operations of X86 (spec/42_hash128_x86.md R161 to R163). -/

namespace Sys2Proof.Machine

theorem exec_x86Block (s : State) :
    exec .x86Block s = .next
      { s with
        x86 :=
          x86Of (s.x86.ctl.afterBlock .x86 s.lenW)
            (x86Round s.x86.acc (blockWord 32 4 s .x86 0) (blockWord 32 4 s .x86 1) (blockWord 32 4 s .x86 2)
              (blockWord 32 4 s .x86 3)) } := rfl

theorem exec_x86Tail (s : State) :
    exec .x86Tail s = .next
      { s with
        x86 :=
          x86Of s.x86.ctl.afterTail
            (x86TailMix s.x86.acc s.x86.ctl.rest (tailWord 32 4 s .x86 0) (tailWord 32 4 s .x86 1)
              (tailWord 32 4 s .x86 2) (tailWord 32 4 s .x86 3)) } := rfl

theorem exec_x86Final_of_undisturbed {s : State} (h : s.x86.ctl.disturbed = false) :
    exec .x86Final s = .next
      { s with x86 := x86Of s.x86.ctl.afterFinal (x86Finish s.x86.acc (finalLen32 s.x86.ctl)) } := by
  simp [exec, execX86Final, h]

/-- With a full block left, each of its four words is four message bytes, the first lowest (R62, R161). -/
theorem x86_blockWord {s : State} (hq : s.x86.ctl.lenQ.toNat < 2 ^ s.lenW)
    (hfull : s.x86.ctl.off.toNat + 16 ≤ s.x86.ctl.lenQ.toNat) {i : Nat} (hi : i < 4) :
    blockWord 32 4 s .x86 i =
      s.blockByte .x86 (4 * i + 3) ++ s.blockByte .x86 (4 * i + 2) ++ s.blockByte .x86 (4 * i + 1) ++
        s.blockByte .x86 (4 * i) := by
  have hword : s.x86.ctl.off.toNat + 4 * i + 4 ≤ s.x86.ctl.lenQ.toNat := by omega
  exact blockWord_four s .x86 i hq hword

/-- Fewer than sixteen bytes are left, so the top byte of lane 4's tail word is absent, hence 0 (R162). -/
theorem x86_tailWord_three {s : State} (hq : s.x86.ctl.lenQ.toNat < 2 ^ s.lenW)
    (h : s.x86.ctl.lenQ.toNat < s.x86.ctl.off.toNat + 16) :
    tailWord 32 4 s .x86 3 = 0#8 ++ s.tailByte .x86 14 ++ s.tailByte .x86 13 ++ s.tailByte .x86 12 := by
  have hend : s.tailByte .x86 15 = 0#8 := tailByte_of_end s .x86 15 (Nat.le_of_lt_succ h)
  rw [← hend]
  exact tailWord_four s .x86 3 hq

/-- Lane `i` absorbs its word exactly where more than `4 * i` bytes are left (R162). -/
theorem x86TailMix_eq (a : Acc4) (r : Nat) (k1 k2 k3 k4 : Word32) :
    x86TailMix a r k1 k2 k3 k4 =
      { h1 := if 0 < r then x86Absorb1 a.h1 k1 else a.h1
        h2 := if 4 < r then x86Absorb2 a.h2 k2 else a.h2
        h3 := if 8 < r then x86Absorb3 a.h3 k3 else a.h3
        h4 := if 12 < r then x86Absorb4 a.h4 k4 else a.h4 } := by
  simp only [x86TailMix, ite_laneCount (n := 4) (by decide)]

/-- Settles O22: the offset does not wrap, and each of the block's four words is its four bytes with the first lowest. -/
theorem x86BlockResult : Obligations.X86BlockResult := by
  intro s hw hq hfull
  rw [exec_x86Block, afterBlock_of_le .x86 hw hq hfull, x86_blockWord hq hfull (i := 0) (by decide),
    x86_blockWord hq hfull (i := 1) (by decide), x86_blockWord hq hfull (i := 2) (by decide),
    x86_blockWord hq hfull (i := 3) (by decide)]
  rfl

/-- Settles O23: each lane absorbs its word exactly where a byte of it is left; the words of lanes 1 to 3 are four tail
bytes each, that of lane 4 is three below a zero. -/
theorem x86TailResult : Obligations.X86TailResult := by
  intro s _ hq hshort
  rw [exec_x86Tail, x86TailMix_eq, tailWord_four s .x86 0 hq, tailWord_four s .x86 1 hq, tailWord_four s .x86 2 hq,
    x86_tailWord_three hq hshort]
  rfl

/-- Settles O24: the lines are those of `x86Finish` on the four accumulators, with the length modulo `2^32`. -/
theorem x86FinalResult : Obligations.X86FinalResult := by
  intro s hundisturbed
  rw [exec_x86Final_of_undisturbed hundisturbed, finalLen32_eq_ofNat]
  rfl

end Sys2Proof.Machine
end

section
/-! PROOFS. The sequencer operations of X64 (spec/43_hash128_x64.md R181 to R183). -/

namespace Sys2Proof.Machine

theorem exec_x64Block (s : State) :
    exec .x64Block s = .next
      { s with
        x64 :=
          x64Of (s.x64.ctl.afterBlock .x64 s.lenW)
            (x64Round s.x64.acc (blockWord 64 8 s .x64 0) (blockWord 64 8 s .x64 1)) } := rfl

theorem exec_x64Tail (s : State) :
    exec .x64Tail s = .next
      { s with
        x64 :=
          x64Of s.x64.ctl.afterTail
            (x64TailMix s.x64.acc s.x64.ctl.rest (tailWord 64 8 s .x64 0) (tailWord 64 8 s .x64 1)) } := rfl

theorem exec_x64Final_of_undisturbed {s : State} (h : s.x64.ctl.disturbed = false) :
    exec .x64Final s = .next
      { s with x64 := x64Of s.x64.ctl.afterFinal (x64Finish s.x64.acc s.x64.ctl.lenQ) } := by
  simp [exec, execX64Final, h]

/-- With a full block left, each of its two words is eight message bytes, the first lowest (R62, R181). -/
theorem x64_blockWord {s : State} (hq : s.x64.ctl.lenQ.toNat < 2 ^ s.lenW)
    (hfull : s.x64.ctl.off.toNat + 16 ≤ s.x64.ctl.lenQ.toNat) {i : Nat} (hi : i < 2) :
    blockWord 64 8 s .x64 i =
      s.blockByte .x64 (8 * i + 7) ++ s.blockByte .x64 (8 * i + 6) ++ s.blockByte .x64 (8 * i + 5) ++
        s.blockByte .x64 (8 * i + 4) ++ s.blockByte .x64 (8 * i + 3) ++ s.blockByte .x64 (8 * i + 2) ++
        s.blockByte .x64 (8 * i + 1) ++ s.blockByte .x64 (8 * i) := by
  have hword : s.x64.ctl.off.toNat + 8 * i + 8 ≤ s.x64.ctl.lenQ.toNat := by omega
  exact blockWord_eight s .x64 i hq hword

/-- Fewer than sixteen bytes are left, so the top byte of lane 2's tail word is absent, hence 0 (R182). -/
theorem x64_tailWord_one {s : State} (hq : s.x64.ctl.lenQ.toNat < 2 ^ s.lenW)
    (h : s.x64.ctl.lenQ.toNat < s.x64.ctl.off.toNat + 16) :
    tailWord 64 8 s .x64 1 =
      0#8 ++ s.tailByte .x64 14 ++ s.tailByte .x64 13 ++ s.tailByte .x64 12 ++ s.tailByte .x64 11 ++
        s.tailByte .x64 10 ++ s.tailByte .x64 9 ++ s.tailByte .x64 8 := by
  have hend : s.tailByte .x64 15 = 0#8 := tailByte_of_end s .x64 15 (Nat.le_of_lt_succ h)
  rw [← hend]
  exact tailWord_eight s .x64 1 hq

/-- Lane 1 absorbs its word exactly where a byte is left, lane 2 exactly where more than eight are (R182). -/
theorem x64TailMix_eq (a : Acc2) (r : Nat) (k1 k2 : Word64) :
    x64TailMix a r k1 k2 =
      { h1 := if 0 < r then x64Absorb1 a.h1 k1 else a.h1
        h2 := if 8 < r then x64Absorb2 a.h2 k2 else a.h2 } := by
  simp only [x64TailMix, ite_laneCount (n := 8) (by decide)]

/-- Settles O25: the offset does not wrap, and each of the block's two words is its eight bytes with the first lowest. -/
theorem x64BlockResult : Obligations.X64BlockResult := by
  intro s hw hq hfull
  rw [exec_x64Block, afterBlock_of_le .x64 hw hq hfull, x64_blockWord hq hfull (i := 0) (by decide),
    x64_blockWord hq hfull (i := 1) (by decide)]
  rfl

/-- Settles O26: each lane absorbs its word exactly where a byte of it is left; the word of lane 1 is eight tail bytes, that
of lane 2 is seven below a zero. -/
theorem x64TailResult : Obligations.X64TailResult := by
  intro s _ hq hshort
  rw [exec_x64Tail, x64TailMix_eq, tailWord_eight s .x64 0 hq, x64_tailWord_one hq hshort]
  rfl

/-- Settles O27: the lines are those of `x64Finish` on the two accumulators; the 64-bit word of the number `len_q` is
`len_q` itself, so the length enters zero-extended. -/
theorem x64FinalResult : Obligations.X64FinalResult := by
  intro s hundisturbed n
  have hlen : n = s.x64.ctl.lenQ := (BitVec.ofNat_toNat 64 _).trans (BitVec.setWidth_eq _)
  rw [exec_x64Final_of_undisturbed hundisturbed, hlen]
  rfl

end Sys2Proof.Machine
end

section
/-! PROOFS. Reserved words and read-only registers, and the ways out of DONE and into IDLE (spec/44_host_interface.md R208,
R210). -/

namespace Sys2Proof.Machine

/-! ### Port accesses that match no row (R98 a, R98 b) -/

/-- The reserved words by the bank and the offset of their addresses (R38). -/
theorem reservedWord_iff (A : BitVec 8) :
    reservedWord A = true ↔
      A.extractLsb' 0 2 = 0 ∧
        ((A.extractLsb' 0 6).toNat = 0x14 ∨ (A.extractLsb' 0 6).toNat = 0x18 ∨ (A.extractLsb' 0 6).toNat = 0x1C ∨
          0x30 ≤ (A.extractLsb' 0 6).toNat ∨
          ((A.extractLsb' 6 2).toNat = 0 ∧ ((A.extractLsb' 0 6).toNat = 0x24 ∨ (A.extractLsb' 0 6).toNat = 0x28 ∨
            (A.extractLsb' 0 6).toNat = 0x2C)) ∨
          (A.extractLsb' 6 2).toNat = 3) := by
  have hbank (n : BitVec 2) : A.extractLsb' 6 2 = n ↔ (A.extractLsb' 6 2).toNat = n.toNat := BitVec.toNat_eq
  simp only [reservedWord, Bool.and_eq_true, Bool.or_eq_true, decide_eq_true_eq, or_assoc, hbank]
  rfl

/-- The write rows stand at the offsets of CTRL, SEED, LEN and LEN_HI in the banks of the engines (R95). -/
theorem decodeWrite_ignored {A : BitVec 8} (D : Word32) (haligned : A.extractLsb' 0 2 = 0)
    (hrow : (A.extractLsb' 6 2).toNat = 3 ∨
      ((A.extractLsb' 0 6).toNat ≠ 0x00 ∧ (A.extractLsb' 0 6).toNat ≠ 0x08 ∧ (A.extractLsb' 0 6).toNat ≠ 0x0C ∧
        (A.extractLsb' 0 6).toNat ≠ 0x10)) :
    decodeWrite A D = .ignoredWrite := by
  rw [decodeWrite, if_neg (not_not_intro haligned)]
  split
  case h_13 => rfl
  all_goals omega

theorem decodeWrite_reserved {A : BitVec 8} (D : Word32) (h : reservedWord A = true) :
    decodeWrite A D = .ignoredWrite := by
  obtain ⟨haligned, hfields⟩ := (reservedWord_iff A).mp h
  exact decodeWrite_ignored D haligned (by omega)

/-- No read row stands at a reserved word (R102, R38). -/
theorem decodeRead_reserved {A : BitVec 8} (h : reservedWord A = true) : decodeRead A = .zeroRead := by
  obtain ⟨haligned, hfields⟩ := (reservedWord_iff A).mp h
  rw [decodeRead, if_neg (not_not_intro haligned)]
  split
  case h_22 => rfl
  all_goals omega

/-- STATUS and the DIGEST words have no write row (R33 to R36). -/
theorem decodeWrite_readOnly {e : Engine} {A : BitVec 8} (D : Word32) (h : readOnlyRegister e A = true) :
    decodeWrite A D = .ignoredWrite := by
  simp only [readOnlyRegister, Bool.or_eq_true, Bool.and_eq_true, decide_eq_true_eq] at h
  rcases h with (rfl | rfl) | ⟨-, (rfl | rfl) | rfl⟩ <;> cases e <;> rfl

/-- A CTRL write with bit 0 clear is no START (R210). -/
theorem decodeWrite_ctrl {D : Word32} (e : Engine) (hD : D.getLsbD 0 = false) :
    decodeWrite (bank e) D = .ignoredWrite := by
  have hbit : ¬ D.getLsbD 0 = true := by rw [hD]; decide
  cases e <;> exact if_neg hbit

/-- CTRL has no read row (R32). -/
theorem decodeRead_ctrl (e : Engine) : decodeRead (bank e) = .zeroRead := by
  cases e <;> rfl

theorem runInput_ignoredWrite {A : BitVec 8} {D : Word32} (h : decodeWrite A D = .ignoredWrite) (s : State) :
    runInput (.hostWrite (A ++ D)) s = .next s := by
  rw [runInput, decode_write, h, runDecoded]

theorem runInput_zeroRead {A : BitVec 8} (h : decodeRead A = .zeroRead) (s : State) :
    runInput (.hostRead A) s = .next { s with answers := 0 :: s.answers } := by
  rw [runInput, decode, h, runDecoded, State.answer]

/-! ### Everything an event can do to the phase of an engine -/

theorem blockOrTail_ne_idle (e : Engine) (n : Nat) : blockOrTail e n ≠ .idle := by
  rw [blockOrTail]
  split <;> decide

theorem ctl_withInputs (s : State) (rest : List Input) (e : Engine) :
    ({ s with inputs := rest } : State).ctl e = s.ctl e := by
  cases e <;> rfl

theorem ctl_withTurns (s : State) (n : Nat) (e : Engine) : ({ s with turns := n } : State).ctl e = s.ctl e := by
  cases e <;> rfl

theorem setCtl_phase (s : State) (e e' : Engine) (c : Ctl) (h : c.phase = (s.ctl e).phase) :
    ((s.setCtl e c).ctl e').phase = (s.ctl e').phase := by
  by_cases he : e' = e
  · rw [he, setCtl_ctl_same, h]
  · rw [setCtl_ctl_other s c he]

/-- A host write moves the phase of an engine only as a START of it, and never to IDLE. -/
theorem phase_write {s t : State} {A : BitVec 8} {D : Word32} (h : WriteEffect s A D t) (e : Engine) :
    (t.ctl e).phase = (s.ctl e).phase ∨ (A = bank e ∧ D.getLsbD 0 = true ∧ (t.ctl e).phase ≠ .idle) := by
  cases h with
  | ignored => exact .inl rfl
  | startH32 ha hd hb =>
    cases e with
    | h32 => exact .inr ⟨ha, hd, blockOrTail_ne_idle _ _⟩
    | x86 => exact .inl rfl
    | x64 => exact .inl rfl
  | startX86 ha hd hb =>
    cases e with
    | h32 => exact .inl rfl
    | x86 => exact .inr ⟨ha, hd, blockOrTail_ne_idle _ _⟩
    | x64 => exact .inl rfl
  | startX64 ha hd hb =>
    cases e with
    | h32 => exact .inl rfl
    | x86 => exact .inl rfl
    | x64 => exact .inr ⟨ha, hd, blockOrTail_ne_idle _ _⟩
  | seed e' ha => exact .inl (setCtl_phase s e' e _ rfl)
  | len e' ha => exact .inl (setCtl_phase s e' e _ rfl)
  | lenHi e' ha => exact .inl (setCtl_phase s e' e _ rfl)

theorem phase_read {s t : State} (h : ReadEffect s t) (e : Engine) : (t.ctl e).phase = (s.ctl e).phase := by
  cases h with
  | answered v => rw [answer_ctl]
  | drew e' hp => rw [answer_ctl]; exact setCtl_phase s e' e _ rfl

theorem phase_setMessageByte (s : State) (e' : Engine) (off : Word64) (b : Byte) (e : Engine) :
    ((setMessageByte s e' off b).ctl e).phase = (s.ctl e).phase := by
  rw [setMessageByte, setMsg_ctl]
  exact setCtl_phase s e' e _ rfl

/-- A turn moves the phase of its own engine only, only out of a busy phase, and never to IDLE. -/
theorem phase_turn {s t : State} {e' : Engine} (h : TurnEffect s e' t) (e : Engine) :
    (t.ctl e).phase = (s.ctl e).phase ∨ (busyBit (s.ctl e).phase = true ∧ (t.ctl e).phase ≠ .idle) := by
  obtain ⟨hown, hother⟩ := ctl_turn h
  by_cases he : e = e'
  · subst he
    generalize t.ctl e = c at hown
    cases hown with
    | idle h => exact .inl rfl
    | block h => exact .inr ⟨by rw [h]; rfl, blockOrTail_ne_idle _ _⟩
    | tail h => exact .inr ⟨by rw [h]; rfl, Phase.noConfusion⟩
    | final k h => exact .inr ⟨by rw [h]; rfl, Phase.noConfusion⟩
  · exact .inl (by rw [hother e he])

/-- Everything a step can do to the phase of an engine, which goes from `p` to `p'`; `ev` is the event that the step takes
off the schedule, where one is left. -/
inductive PhaseMove (e : Engine) (ev : Option Input) (p p' : Phase) : Prop
  | stays (h : p' = p)
  | turn (hbusy : busyBit p = true) (hp : p' ≠ .idle)
  | start (i : Input) (hev : ev = some i) (hstart : i.starts e = true) (hp : p' ≠ .idle)
  | reset (hev : ev = some .reset)

theorem starts_hostWrite {e : Engine} {T : BitVec 40} (ha : T.extractLsb' 32 8 = bank e)
    (hd : (T.extractLsb' 0 32).getLsbD 0 = true) : (Input.hostWrite T).starts e = true := by
  simpa [Input.starts, ha] using hd

theorem phaseMove_of_turn {s t : State} {e' : Engine} (h : TurnEffect s e' t) (e : Engine) (ev : Option Input) :
    PhaseMove e ev (s.ctl e).phase (t.ctl e).phase :=
  (phase_turn h e).elim .stays fun ⟨hbusy, hp⟩ => .turn hbusy hp

theorem phaseMove_of_input {s t : State} {i : Input} (h : InputEffect s i t) (e : Engine) :
    PhaseMove e (some i) (s.ctl e).phase (t.ctl e).phase := by
  cases h with
  | hostWrite T t h =>
    rcases phase_write h e with hstays | ⟨ha, hd, hp⟩
    · exact .stays hstays
    · exact .start _ rfl (starts_hostWrite ha hd) hp
  | hostRead A t h => exact .stays (phase_read h e)
  | engineTurn e' t h => exact phaseMove_of_turn h e _
  | reset => exact .reset rfl
  | messageByte e' off b hoff => exact .stays (phase_setMessageByte s e' off b e)

theorem phaseMove_of_step {s t : State} (h : step s = .next t) (e : Engine) :
    PhaseMove e s.inputs.head? (s.ctl e).phase (t.ctl e).phase := by
  rcases step_cases h with ⟨i, rest, hi, hrun⟩ | ⟨-, e', -, hrun⟩ | ⟨-, -, rfl⟩
  · have hmove := phaseMove_of_input (input_effect hrun) e
    rwa [ctl_withInputs, ← List.head?_cons (l := rest), ← hi] at hmove
  · have hmove := phaseMove_of_turn (turn_effect hrun) e s.inputs.head?
    rwa [ctl_withTurns] at hmove
  · exact .stays rfl

end Sys2Proof.Machine

namespace Sys2Proof.HostPort

open Sys2Proof.Machine

/-- Settles O9: no row of the write or read map stands at a reserved word, nor a write row at a read-only register. -/
theorem reservedAccess : Obligations.ReservedAccess := by
  intro s A D
  exact
    ⟨fun h => ⟨runInput_zeroRead (decodeRead_reserved h) s, runInput_ignoredWrite (decodeWrite_reserved D h) s⟩,
      fun _ h => runInput_ignoredWrite (decodeWrite_readOnly D h) s⟩

/-- Settles O10: of the four ways a step can move a phase, a turn leaves only busy phases, a START never leads to IDLE,
and the fourth is reset. -/
theorem onlyStartOrResetEndsDone : Obligations.OnlyStartOrResetEndsDone := by
  refine ⟨fun s e D hD => runInput_ignoredWrite (decodeWrite_ctrl e hD) s, fun s t e hstep => ⟨?leaves, ?enters⟩⟩
  case leaves =>
    intro hdone hleft
    cases phaseMove_of_step hstep e with
    | stays h => exact absurd (h.trans hdone) hleft
    | turn hbusy _ => rw [hdone] at hbusy; cases hbusy
    | start i hev hstart _ =>
      obtain ⟨rest, hi⟩ := List.head?_eq_some_iff.mp hev
      exact ⟨i, rest, hi, .inl hstart⟩
    | reset hev =>
      obtain ⟨rest, hi⟩ := List.head?_eq_some_iff.mp hev
      exact ⟨.reset, rest, hi, .inr rfl⟩
  case enters =>
    intro hnot hidle
    cases phaseMove_of_step hstep e with
    | stays h => exact absurd (h.symm.trans hidle) hnot
    | turn _ hp => exact absurd hidle hp
    | start _ _ _ hp => exact absurd hidle hp
    | reset hev => exact List.head?_eq_some_iff.mp hev

end Sys2Proof.HostPort
end

section
/-! PROOFS. The host's registers SEED, LEN and STATUS (spec/44_host_interface.md R202, R203, R204, R207). -/

namespace Sys2Proof.Machine

/-! ### The two port registers of a length, bit by bit and as numbers -/

/-- A length that fits is its own truncation. -/
theorem truncTo_of_lt {n : Nat} {v : Word64} (hn : n ≤ 64) (h : v.toNat < 2 ^ n) : truncTo n v = v :=
  BitVec.eq_of_toNat_eq (by rw [truncTo_toNat n v hn, Nat.mod_eq_of_lt h])

/-- LEN_HI replaces bits `LEN_W-1 .. 32`, and none where `LEN_W <= 32` (R203); above `LEN_W` a length that fits is 0
before and after. -/
theorem lenWithHigh_getLsbD {lenW : Nat} {len : Word64} (d : Word32) {i : Nat} (hw : lenW ≤ 64)
    (hlen : len.toNat < 2 ^ lenW) (hi : i < 64) :
    (lenWithHigh lenW len d).getLsbD i = if 32 ≤ i ∧ i < lenW then d.getLsbD (i - 32) else len.getLsbD i := by
  rw [lenWithHigh]
  split
  case isFalse hnarrow => rw [if_neg (by omega)]
  case isTrue =>
    rw [BitVec.getLsbD_or, truncTo_getLsbD 32 i len (by decide), truncTo_getLsbD lenW i _ hw,
      BitVec.getLsbD_shiftLeft, BitVec.getLsbD_setWidth]
    rcases Nat.lt_or_ge i 32 with hlow | hhigh
    · simp [hlow, hi]
    rcases Nat.lt_or_ge i lenW with hin | hout
    · simp [hhigh, Nat.not_lt.mpr hhigh, hin, hi, Nat.lt_of_le_of_lt (Nat.sub_le i 32) hi]
    · simp [Nat.not_lt.mpr hhigh, Nat.not_lt.mpr hout, getLsbD_of_lt_two_pow hlen hout]

/-- LEN reads as the low `min(LEN_W, 32)` bits (R207). -/
theorem lenLow_eq_ofNat (lenW : Nat) (len : Word64) :
    lenLow lenW len = BitVec.ofNat 32 (len.toNat % 2 ^ min lenW 32) := by
  apply BitVec.eq_of_toNat_eq
  rw [lenLow, BitVec.toNat_setWidth, truncTo_toNat _ _ (by omega), BitVec.toNat_ofNat]

/-- LEN_HI reads as the bits from 32 up of a length that fits (R207). -/
theorem lenHigh_eq_ofNat {lenW : Nat} {len : Word64} (hw : lenW ≤ 64) (hlen : len.toNat < 2 ^ lenW) :
    lenHigh lenW len = if 32 < lenW then BitVec.ofNat 32 (len.toNat / 2 ^ 32) else 0 := by
  refine if_congr Iff.rfl (BitVec.eq_of_toNat_eq ?_) rfl
  rw [truncTo_of_lt hw hlen, BitVec.toNat_setWidth, BitVec.toNat_ushiftRight, BitVec.toNat_ofNat,
    Nat.shiftRight_eq_div_pow]

/-- The five words of R204 are the STATUS words of the five phases. -/
theorem statusWord_eq_of_words {word : Phase → Word32} (hidle : word .idle = 0x00000000)
    (hblock : word .block = 0x00000011) (htail : word .tail = 0x00000021) (hfinal : word .final = 0x00000031)
    (hdone : word .done = 0x00000042) (p : Phase) : statusWord p = word p := by
  cases p with
  | idle => rw [hidle]; rfl
  | block => rw [hblock]; rfl
  | tail => rw [htail]; rfl
  | final => rw [hfinal]; rfl
  | done => rw [hdone]; rfl

/-! ### Each register access is the shared operation of its engine -/

theorem exec_h32WrSeed (D : Word32) (s : State) : exec (.h32WrSeed D) s = .next (writeSeed .h32 D s) := rfl
theorem exec_x86WrSeed (D : Word32) (s : State) : exec (.x86WrSeed D) s = .next (writeSeed .x86 D s) := rfl
theorem exec_x64WrSeed (D : Word32) (s : State) : exec (.x64WrSeed D) s = .next (writeSeed .x64 D s) := rfl
theorem exec_h32WrLen (D : Word32) (s : State) : exec (.h32WrLen D) s = .next (writeLen .h32 D s) := rfl
theorem exec_x86WrLen (D : Word32) (s : State) : exec (.x86WrLen D) s = .next (writeLen .x86 D s) := rfl
theorem exec_x64WrLen (D : Word32) (s : State) : exec (.x64WrLen D) s = .next (writeLen .x64 D s) := rfl
theorem exec_h32WrLenHi (D : Word32) (s : State) : exec (.h32WrLenHi D) s = .next (writeLenHi .h32 D s) := rfl
theorem exec_x86WrLenHi (D : Word32) (s : State) : exec (.x86WrLenHi D) s = .next (writeLenHi .x86 D s) := rfl
theorem exec_x64WrLenHi (D : Word32) (s : State) : exec (.x64WrLenHi D) s = .next (writeLenHi .x64 D s) := rfl
theorem exec_h32RdSeed (s : State) : exec .h32RdSeed s = .next (readSeed .h32 s) := rfl
theorem exec_x86RdSeed (s : State) : exec .x86RdSeed s = .next (readSeed .x86 s) := rfl
theorem exec_x64RdSeed (s : State) : exec .x64RdSeed s = .next (readSeed .x64 s) := rfl
theorem exec_h32RdLen (s : State) : exec .h32RdLen s = .next (readLen .h32 s) := rfl
theorem exec_x86RdLen (s : State) : exec .x86RdLen s = .next (readLen .x86 s) := rfl
theorem exec_x64RdLen (s : State) : exec .x64RdLen s = .next (readLen .x64 s) := rfl
theorem exec_h32RdLenHi (s : State) : exec .h32RdLenHi s = .next (readLenHi .h32 s) := rfl
theorem exec_x86RdLenHi (s : State) : exec .x86RdLenHi s = .next (readLenHi .x86 s) := rfl
theorem exec_x64RdLenHi (s : State) : exec .x64RdLenHi s = .next (readLenHi .x64 s) := rfl

/-! ### What a read of a register answers -/

theorem readStatus_eq {word : Phase → Word32} (hword : ∀ p, statusWord p = word p) (e : Engine) (s : State) :
    readStatus e s = { s with answers := word (s.ctl e).phase :: s.answers } := by
  rw [readStatus, hword, State.answer]

theorem readLen_eq (e : Engine) (s : State) :
    readLen e s = { s with answers := BitVec.ofNat 32 ((s.ctl e).len.toNat % 2 ^ min s.lenW 32) :: s.answers } := by
  rw [readLen, lenLow_eq_ofNat, State.answer]

theorem readLenHi_eq {s : State} {e : Engine} (hw : s.lenW ≤ 64) (hlen : (s.ctl e).len.toNat < 2 ^ s.lenW) :
    readLenHi e s =
      { s with
        answers := (if 32 < s.lenW then BitVec.ofNat 32 ((s.ctl e).len.toNat / 2 ^ 32) else 0) :: s.answers } := by
  rw [readLenHi, lenHigh_eq_ofNat hw hlen, State.answer]

end Sys2Proof.Machine

namespace Sys2Proof.HostPort

open Sys2Proof.Machine

/-- Settles O12: a write of SEED replaces one field of its engine's control part. -/
theorem writeSeed : Obligations.WriteSeed := by
  intro s D
  exact ⟨exec_h32WrSeed D s, exec_x86WrSeed D s, exec_x64WrSeed D s⟩

/-- Settles O13: each write replaces the field LEN alone, by a value whose bits are those of R203. -/
theorem writeLen : Obligations.WriteLen := by
  intro s D hw
  have hlow (len : Word64) (i : Nat) (hi : i < 64) := lenWithLow_getLsbD s.lenW i len D hi
  have hhigh (len : Word64) (hlen : len.toNat < 2 ^ s.lenW) (i : Nat) (hi : i < 64) :=
    lenWithHigh_getLsbD D hw hlen hi
  exact
    ⟨⟨_, exec_h32WrLen D s, hlow _⟩, fun hlen => ⟨_, exec_h32WrLenHi D s, hhigh _ hlen⟩,
      ⟨_, exec_x86WrLen D s, hlow _⟩, fun hlen => ⟨_, exec_x86WrLenHi D s, hhigh _ hlen⟩,
      ⟨_, exec_x64WrLen D s, hlow _⟩, fun hlen => ⟨_, exec_x64WrLenHi D s, hhigh _ hlen⟩⟩

/-- Settles O14: each read answers the register of its engine, a length through its low or its high half. -/
theorem readRegisters : Obligations.ReadRegisters := by
  intro s hw
  refine
    ⟨exec_h32RdSeed s, ?_, fun hlen => ?_, runInput_zeroRead (decodeRead_ctrl .h32) s,
      exec_x86RdSeed s, ?_, fun hlen => ?_, runInput_zeroRead (decodeRead_ctrl .x86) s,
      exec_x64RdSeed s, ?_, fun hlen => ?_, runInput_zeroRead (decodeRead_ctrl .x64) s⟩
  · rw [exec_h32RdLen, readLen_eq, State.ctl]
  · rw [exec_h32RdLenHi, readLenHi_eq (e := .h32) hw hlen, State.ctl]
  · rw [exec_x86RdLen, readLen_eq, State.ctl]
  · rw [exec_x86RdLenHi, readLenHi_eq (e := .x86) hw hlen, State.ctl]
  · rw [exec_x64RdLen, readLen_eq, State.ctl]
  · rw [exec_x64RdLenHi, readLenHi_eq (e := .x64) hw hlen, State.ctl]

/-- Settles O15: the word of a phase is its STATUS word, and a read adds it to the answers. -/
theorem readStatus : Obligations.ReadStatus := by
  intro s word hidle hblock htail hfinal hdone
  have hread := readStatus_eq (statusWord_eq_of_words hidle hblock htail hfinal hdone)
  exact
    ⟨(exec_h32RdStatus s).trans (congrArg _ (hread .h32 s)), (exec_x86RdStatus s).trans (congrArg _ (hread .x86 s)),
      (exec_x64RdStatus s).trans (congrArg _ (hread .x64 s))⟩

end Sys2Proof.HostPort
end

section
/-! PROOFS. The encoder and the decoder are inverse; the port's maps row by row (spec/30_encoding.md R91 to R95, R98,
R102). -/

namespace Sys2Proof.Machine

/-! ### Each format: a request that names an instruction is the encoding of it -/

theorem encode_of_decodeWrite {A : BitVec 8} {D : Word32} {i : Instr} (h : decodeWrite A D = .instr i) :
    i.wellFormed = true ∧ encode i = .write (A ++ D) := by
  rw [decodeWrite] at h
  split at h
  · cases h
  · split at h
    case h_1 hb ho | h_5 hb ho | h_9 hb ho =>
      rw [address_of_fields hb ho]
      split at h <;> cases h
      exact ⟨‹D.getLsbD 0 = true›, rfl⟩
    case h_13 => cases h
    all_goals
      rename_i hb ho
      rw [address_of_fields hb ho]
      cases h
      exact ⟨rfl, rfl⟩

theorem encode_of_decodeRead {A : BitVec 8} {i : Instr} (h : decodeRead A = .instr i) :
    i.wellFormed = true ∧ encode i = .read A := by
  rw [decodeRead] at h
  split at h
  · cases h
  · split at h
    case h_22 => cases h
    all_goals
      rename_i hb ho
      rw [address_of_fields hb ho]
      cases h
      exact ⟨rfl, rfl⟩

theorem selector_of_fields {S : BitVec 5} {g p : Nat} (hg : (S.extractLsb' 3 2).toNat = g)
    (hp : (S.extractLsb' 0 3).toNat = p) : S = BitVec.ofNat 5 (8 * g + p) := by
  apply BitVec.eq_of_toNat_eq
  simp only [BitVec.extractLsb'_toNat, Nat.shiftRight_eq_div_pow] at hg hp
  have hS := S.isLt
  rw [BitVec.toNat_ofNat]
  omega

theorem encode_of_decodeSelect {S : BitVec 5} {i : Instr} (h : decodeSelect S = .instr i) :
    i.wellFormed = true ∧ encode i = .select S := by
  rw [decodeSelect] at h
  split at h
  case h_16 => cases h
  all_goals
    rename_i hg hp
    rw [selector_of_fields hg hp]
    cases h <;> exact ⟨rfl, rfl⟩

/-- Settles O2: in each format the fields that select a row of the map determine the request, up to the data it carries. -/
theorem encodeOfDecode : Obligations.EncodeOfDecode := by
  intro r i h
  cases r with
  | write T =>
    rw [write_eq_append T]
    exact encode_of_decodeWrite h
  | read A => exact encode_of_decodeRead h
  | select S => exact encode_of_decodeSelect h

/-- Settles O1: a host write is read back from the address and the data it is made of, where a START needs bit 0 of the
data; the reads and the sequencer operations carry no operand. -/
theorem decodeOfEncode : Obligations.DecodeOfEncode := by
  intro i hi
  cases i with
  | h32Start D | x86Start D | x64Start D => exact (decode_write _ D).trans (if_pos hi)
  | h32WrSeed D | h32WrLen D | h32WrLenHi D | x86WrSeed D | x86WrLen D | x86WrLenHi D | x64WrSeed D | x64WrLen D
  | x64WrLenHi D => exact decode_write _ D
  | _ => rfl

theorem decode_eq_instr_iff (r : Request) (i : Instr) :
    decode r = .instr i ↔ i.wellFormed = true ∧ encode i = r :=
  ⟨encodeOfDecode r i, fun ⟨hwf, he⟩ => he ▸ decodeOfEncode i hwf⟩

/-! ### The match and mask columns of the HOSTWR map (R95) -/

theorem append_inj {A A' : BitVec 8} {D D' : Word32} : (A ++ D : BitVec 40) = A' ++ D' ↔ A = A' ∧ D = D' := by
  refine ⟨fun h => ⟨?_, ?_⟩, fun ⟨hA, hD⟩ => by rw [hA, hD]⟩
  · rw [← extract_address A D, h, extract_address]
  · rw [← extract_data A D, h, extract_data]

/-- A mask that covers the whole address and the data bits of `M` leaves the address and those data bits. -/
theorem masked_eq_iff (T : BitVec 40) (A : BitVec 8) (M D : Word32) :
    T &&& (0xFF#8 ++ M) = A ++ D ↔ T.extractLsb' 32 8 = A ∧ T.extractLsb' 0 32 &&& M = D := by
  have hmask : (T.extractLsb' 32 8 ++ T.extractLsb' 0 32 : BitVec 40) &&& (0xFF#8 ++ M) =
      (T.extractLsb' 32 8 &&& 0xFF#8) ++ (T.extractLsb' 0 32 &&& M) := BitVec.and_append
  rw [← write_eq_append T, show T.extractLsb' 32 8 &&& 0xFF#8 = T.extractLsb' 32 8 from BitVec.and_allOnes] at hmask
  rw [hmask, append_inj]

/-- A host write decodes to the row of its address exactly where the row's instruction is well formed with its data. -/
theorem decode_write_eq_iff {i : Word32 → Instr} {A : BitVec 8} (he : ∀ D, encode (i D) = .write (A ++ D))
    (T : BitVec 40) :
    decode (.write T) = .instr (i (T.setWidth 32)) ↔
      T.extractLsb' 32 8 = A ∧ (i (T.extractLsb' 0 32)).wellFormed = true := by
  have hT : A ++ T.extractLsb' 0 32 = T ↔ T.extractLsb' 32 8 = A := by
    conv => enter [1, 2]; rw [write_eq_append T]
    rw [append_inj, eq_comm, and_iff_left rfl]
  rw [decode_eq_instr_iff, he, BitVec.setWidth_eq_extractLsb' (by decide), Request.write.injEq, hT, and_comm]

/-- The row of a register write at address `A`: all address bits are matched and none of the data. -/
theorem write_row_iff {i : Word32 → Instr} {A : BitVec 8} (hwf : ∀ D, (i D).wellFormed = true)
    (he : ∀ D, encode (i D) = .write (A ++ D)) (T : BitVec 40) :
    T &&& (0xFF#8 ++ 0#32) = A ++ 0#32 ↔ decode (.write T) = .instr (i (T.setWidth 32)) := by
  rw [masked_eq_iff, decode_write_eq_iff he, hwf, and_iff_left BitVec.and_zero, and_iff_left rfl]

theorem and_one_eq_one_iff (D : Word32) : D &&& 1#32 = 1#32 ↔ D.getLsbD 0 = true := by
  rw [BitVec.and_one_eq_setWidth_ofBool_getLsbD]
  cases D.getLsbD 0 <;> decide

/-- The row of a START at address `A`: all address bits are matched, and bit 0 of the data is 1. -/
theorem start_row_iff {i : Word32 → Instr} {A : BitVec 8} (hwf : ∀ D, (i D).wellFormed = D.getLsbD 0)
    (he : ∀ D, encode (i D) = .write (A ++ D)) (T : BitVec 40) :
    T &&& (0xFF#8 ++ 1#32) = A ++ 1#32 ↔ decode (.write T) = .instr (i (T.setWidth 32)) := by
  rw [masked_eq_iff, decode_write_eq_iff he, hwf, and_one_eq_one_iff]

/-- A CTRL write with bit 0 clear has no row. -/
theorem ctrl_row_ignored (e : Engine) {T : BitVec 40} (h : T &&& (0xFF#8 ++ 1#32) = bank e ++ 0#32) :
    decode (.write T) = .ignoredWrite := by
  rw [masked_eq_iff] at h
  obtain ⟨haddr, hdata⟩ := h
  have hbit : (T.extractLsb' 0 32).getLsbD 0 = false := by
    have hne : ¬ (T.extractLsb' 0 32) &&& 1#32 = 1#32 := by rw [hdata]; decide
    rwa [and_one_eq_one_iff, Bool.not_eq_true] at hne
  rw [decode, haddr]
  exact decodeWrite_ctrl e hbit

/-- Settles O3: under its mask a row's match fixes the address, and for a START data bit 0; these are the instruction's
encodings, so the decoder reads the row from them and from no other word. -/
theorem hostWriteRows : Obligations.HostWriteRows := by
  intro T
  exact
    ⟨start_row_iff (A := 0x00) (fun _ => rfl) (fun _ => rfl) T, write_row_iff (A := 0x08) (fun _ => rfl) (fun _ => rfl) T,
      write_row_iff (A := 0x0C) (fun _ => rfl) (fun _ => rfl) T, write_row_iff (A := 0x10) (fun _ => rfl) (fun _ => rfl) T,
      start_row_iff (A := 0x40) (fun _ => rfl) (fun _ => rfl) T, write_row_iff (A := 0x48) (fun _ => rfl) (fun _ => rfl) T,
      write_row_iff (A := 0x4C) (fun _ => rfl) (fun _ => rfl) T, write_row_iff (A := 0x50) (fun _ => rfl) (fun _ => rfl) T,
      start_row_iff (A := 0x80) (fun _ => rfl) (fun _ => rfl) T, write_row_iff (A := 0x88) (fun _ => rfl) (fun _ => rfl) T,
      write_row_iff (A := 0x8C) (fun _ => rfl) (fun _ => rfl) T, write_row_iff (A := 0x90) (fun _ => rfl) (fun _ => rfl) T,
      fun h => h.elim (ctrl_row_ignored .h32) fun h => h.elim (ctrl_row_ignored .x86) (ctrl_row_ignored .x64)⟩

/-! ### The address column of the HOSTRD map (R102) -/

/-- Settles O4: the 21 addresses are decoded one by one; another aligned address would have to be one of them to reach a
row. -/
theorem hostReadRows : Obligations.HostReadRows := by
  refine ⟨rfl, rfl, rfl, rfl, rfl, rfl, rfl, rfl, rfl, rfl, rfl, rfl, rfl, rfl, rfl, rfl, rfl, rfl, rfl, rfl, rfl,
    ?noRow⟩
  case noRow =>
    intro A haligned hnot
    rw [decode, decodeRead, if_neg (not_not_intro haligned)]
    split
    case h_22 => rfl
    all_goals
      rename_i hb ho
      rw [address_of_fields hb ho] at hnot
      exact absurd (by decide) hnot

/-- Settles O6: each word is split into its fields and looked up. -/
theorem specWordsDecode : Obligations.SpecWordsDecode := by
  rw [Obligations.SpecWordsDecode]
  decide

/-! ### Misaligned accesses (R206, log 11) -/

/-- Settles O11: alignment is asked first, in either map. -/
theorem misalignedAccessRefused : Obligations.MisalignedAccessRefused := by
  intro s A D hmis
  have hread : decodeRead A = .misaligned := if_pos hmis
  have hwrite : decodeWrite A D = .misaligned := if_pos hmis
  exact ⟨by rw [runInput, decode, hread, runDecoded], by rw [runInput, decode_write, hwrite, runDecoded]⟩

end Sys2Proof.Machine
end

section
/-! PROOFS. The step runs the decoded instruction, from the schedule and where a word of the table is placed
(spec/00_scope.md R12, spec/30_encoding.md R94; logs 1 and 15). -/

namespace Sys2Proof.Machine

/-! ### The step on a schedule that is not exhausted -/

theorem runDecoded_instr (i : Instr) (s : State) : runDecoded (.instr i) s = exec i s := rfl

theorem step_hostWrite {s : State} {T : BitVec 40} {rest : List Input} {i : Instr}
    (h : s.inputs = .hostWrite T :: rest) (hi : decode (.write T) = .instr i) :
    step s = exec i { s with inputs := rest } := by
  rw [step_cons s _ rest h, runInput, hi, runDecoded_instr]

theorem step_hostRead {s : State} {A : BitVec 8} {rest : List Input} {i : Instr}
    (h : s.inputs = .hostRead A :: rest) (hi : decode (.read A) = .instr i) :
    step s = exec i { s with inputs := rest } := by
  rw [step_cons s _ rest h, runInput, hi, runDecoded_instr]

theorem step_engineTurn {s : State} {e : Engine} {rest : List Input} (h : s.inputs = .engineTurn e :: rest) :
    step s = runEngine e { s with inputs := rest } := step_cons s _ rest h

theorem runEngine_of_selects {s : State} {e : Engine} {i : Instr}
    (hi : decode (.select (selector e (s.ctl e).phase)) = .instr i) : runEngine e s = exec i s := by
  rw [runEngine, hi, runDecoded_instr]

/-- Settles O7: a step runs the oldest event on the state without it, and taking an event off moves no phase. -/
theorem stepRunsDecoded : Obligations.StepRunsDecoded := by
  intro s rest i
  refine ⟨fun T => step_hostWrite, fun A => step_hostRead, fun e h hi => ?turn, fun e h hp => ?noStep⟩
  case turn =>
    rw [← ctl_withInputs s rest e] at hi
    rw [step_engineTurn h, runEngine_of_selects hi]
  case noStep =>
    rw [← ctl_withInputs s rest e] at hp
    rw [step_engineTurn h]
    exact hp.elim runEngine_of_idle runEngine_of_done

/-! ### A word of the opcode table, placed -/

theorem step_issue (s : State) (i : Input) : step (s.issue i) = runInput i s := step_cons _ i s.inputs rfl

theorem tableRequest_write {w : Nat} (hw : w < 2 ^ 40) : tableRequest 40 w = some (.write (BitVec.ofNat 40 w)) :=
  if_neg (Nat.not_le.mpr hw)

theorem tableRequest_read {w : Nat} (hw : w < 2 ^ 8) (haligned : w % 4 = 0) :
    tableRequest 8 w = some (.read (BitVec.ofNat 8 w)) :=
  (if_neg (Nat.not_le.mpr hw)).trans (if_neg fun h : w % 4 ≠ 0 ∧ w < 32 => h.1 haligned)

/-- The selectors of a busy phase are told apart from addresses by `PHASE`, and name their engine and phase (R94). -/
theorem tableRequest_selector (e : Engine) {p : Phase} (hp : busyBit p = true) :
    tableRequest 8 (selector e p).toNat = some (.select (selector e p)) ∧ selected (selector e p) = some (e, p) := by
  rcases (busyBit_eq_true_iff p).mp hp with rfl | rfl | rfl <;> cases e <;> exact ⟨rfl, rfl⟩

theorem busyBit_of_selects {e : Engine} {p : Phase} {i : Instr} (h : decode (.select (selector e p)) = .instr i) :
    busyBit p = true := by
  rw [busyBit_eq_true_iff]
  cases p with
  | idle => rw [decode_selector_idle] at h; cases h
  | done => rw [decode_selector_done] at h; cases h
  | block => exact .inl rfl
  | tail => exact .inr (.inl rfl)
  | final => exact .inr (.inr rfl)

/-- Settles O8: a placed transaction is the oldest event; a placed selector sets the phase that selects it and gives the
engine the next turn. -/
theorem placedWordRunsNext : Obligations.PlacedWordRunsNext := by
  intro s i
  refine ⟨fun w hw hi => ?write, fun w hw haligned hi => ?read, fun e p hi => ?select⟩
  case write =>
    rw [State.withFetchWord, tableRequest_write hw]
    exact (step_issue s _).trans (by rw [runInput, hi, runDecoded_instr])
  case read =>
    rw [State.withFetchWord, tableRequest_read hw haligned]
    exact (step_issue s _).trans (by rw [runInput, hi, runDecoded_instr])
  case select =>
    obtain ⟨hrequest, hselected⟩ := tableRequest_selector e (busyBit_of_selects hi)
    have hplace : s.withFetchWord 8 (selector e p).toNat =
        (s.setCtl e { s.ctl e with phase := p }).issue (.engineTurn e) := by
      simp only [State.withFetchWord, State.place, hrequest, hselected]
    rw [hplace, step_issue]
    exact runEngine_of_selects (by rwa [setCtl_ctl_same])

end Sys2Proof.Machine
end

section
/-! PROOFS. Everything a step can do to the control part of an engine, and what follows: the sequencer invariants, the host
registers, and that every admitted step goes on (spec/10_state.md R26, R28, R30, R31; spec/60_exceptions.md R220). -/

namespace Sys2Proof.Machine

/-! ### Everything a step can do to a control part -/

/-- The change of the control part `c` of an engine in a step; `ev` is the event that the step takes off the schedule,
where one is left. -/
inductive CtlEffect (lenW : Nat) (e : Engine) (ev : Option Input) (c : Ctl) : Ctl → Prop
  /-- The event concerns the model's own fields at most: the count of draws and, where it changes the message, the mark of a
  disturbed run. -/
  | kept (x : Bool) (n : Nat) (hx : x = c.disturbed ∨ ∃ i, ev = some i ∧ i.changesMessage e = true) :
      CtlEffect lenW e ev c { c with disturbed := x, draws := n }
  | turn (c' : Ctl) (hev : ev = some (.engineTurn e) ∨ ev = none) (h : CtlTurn lenW e c c') : CtlEffect lenW e ev c c'
  | start (i : Input) (hev : ev = some i) (hs : i.starts e = true) (hb : busyBit c.phase = false) :
      CtlEffect lenW e ev c (c.start e)
  | seed (i : Input) (d : Word32) (hev : ev = some i) (hw : i.writesAt e 0x08 = true) :
      CtlEffect lenW e ev c { c with seed := d }
  | len (i : Input) (d : Word32) (hev : ev = some i) (hw : i.writesAt e 0x0C = true) :
      CtlEffect lenW e ev c { c with len := lenWithLow lenW c.len d }
  | lenHi (i : Input) (d : Word32) (hev : ev = some i) (hw : i.writesAt e 0x10 = true) :
      CtlEffect lenW e ev c { c with len := lenWithHigh lenW c.len d }
  | reset (hev : ev = some .reset) : CtlEffect lenW e ev c (c.afterReset e lenW)

theorem ctlEffect_refl (lenW : Nat) (e : Engine) (ev : Option Input) (c : Ctl) : CtlEffect lenW e ev c c :=
  .kept c.disturbed c.draws (.inl rfl)

/-- Where one engine's control part is replaced, an effect on it is all there is to say of every engine. -/
theorem ctlEffect_setCtl {s : State} {ev : Option Input} {e' : Engine} {c : Ctl}
    (h : CtlEffect s.lenW e' ev (s.ctl e') c) (e : Engine) : CtlEffect s.lenW e ev (s.ctl e) ((s.setCtl e' c).ctl e) := by
  by_cases he : e = e'
  · rw [he, setCtl_ctl_same]; exact h
  · rw [setCtl_ctl_other s c he]; exact ctlEffect_refl _ _ _ _

theorem writesAt_hostWrite {e : Engine} {T : BitVec 40} {o : BitVec 8} (ha : T.extractLsb' 32 8 = bank e + o) :
    (Input.hostWrite T).writesAt e o = true := decide_eq_true ha

theorem ctlEffect_write {s t : State} {T : BitVec 40}
    (h : WriteEffect s (T.extractLsb' 32 8) (T.extractLsb' 0 32) t) (e : Engine) :
    CtlEffect s.lenW e (some (.hostWrite T)) (s.ctl e) (t.ctl e) := by
  cases h with
  | ignored => exact ctlEffect_refl _ _ _ _
  | startH32 ha hd hb =>
    cases e with
    | h32 => exact .start _ rfl (starts_hostWrite ha hd) hb
    | x86 | x64 => exact ctlEffect_refl _ _ _ _
  | startX86 ha hd hb =>
    cases e with
    | x86 => exact .start _ rfl (starts_hostWrite ha hd) hb
    | h32 | x64 => exact ctlEffect_refl _ _ _ _
  | startX64 ha hd hb =>
    cases e with
    | x64 => exact .start _ rfl (starts_hostWrite ha hd) hb
    | h32 | x86 => exact ctlEffect_refl _ _ _ _
  | seed e' ha => exact ctlEffect_setCtl (.seed _ _ rfl (writesAt_hostWrite ha)) e
  | len e' ha => exact ctlEffect_setCtl (.len _ _ rfl (writesAt_hostWrite ha)) e
  | lenHi e' ha => exact ctlEffect_setCtl (.lenHi _ _ rfl (writesAt_hostWrite ha)) e

theorem ctlEffect_turn {s t : State} {e' : Engine} (h : TurnEffect s e' t) {ev : Option Input}
    (hev : ev = some (.engineTurn e') ∨ ev = none) (e : Engine) : CtlEffect s.lenW e ev (s.ctl e) (t.ctl e) := by
  obtain ⟨hown, hother⟩ := ctl_turn h
  by_cases he : e = e'
  · subst he
    exact .turn _ hev hown
  · rw [hother e he]
    exact ctlEffect_refl _ _ _ _

theorem ctlEffect_input {s t : State} {i : Input} (h : InputEffect s i t) (e : Engine) :
    CtlEffect s.lenW e (some i) (s.ctl e) (t.ctl e) := by
  cases h with
  | hostWrite T t h => exact ctlEffect_write h e
  | hostRead A t h =>
    cases h with
    | answered v => rw [answer_ctl]; exact ctlEffect_refl _ _ _ _
    | drew e' hp => rw [answer_ctl]; exact ctlEffect_setCtl (.kept _ _ (.inl rfl)) e
  | engineTurn e' t h => exact ctlEffect_turn h (.inl rfl) e
  | reset => rw [resetEvent_ctl]; exact .reset rfl
  | messageByte e' off b hoff =>
    have hchanges : (Input.messageByte e' off b).changesMessage e' = true := decide_eq_true rfl
    rw [setMessageByte, setMsg_ctl]
    exact ctlEffect_setCtl (.kept _ _ (.inr ⟨_, rfl, hchanges⟩)) e

theorem ctlEffect_step {s t : State} (h : step s = .next t) (e : Engine) :
    CtlEffect s.lenW e s.inputs.head? (s.ctl e) (t.ctl e) := by
  rcases step_cases h with ⟨i, rest, hi, hrun⟩ | ⟨hi, e', -, hrun⟩ | ⟨-, -, rfl⟩
  · have heffect := ctlEffect_input (input_effect hrun) e
    rwa [ctl_withInputs, ← List.head?_cons (l := rest), ← hi] at heffect
  · have heffect := ctlEffect_turn (turn_effect hrun) (ev := s.inputs.head?) (.inr (by rw [hi]; rfl)) e
    rwa [ctl_withTurns] at heffect
  · exact ctlEffect_refl _ _ _ _

theorem lenW_step {s t : State} (h : step s = .next t) : t.lenW = s.lenW := by
  rcases step_cases h with ⟨i, rest, -, hrun⟩ | ⟨-, e, -, hrun⟩ | ⟨-, -, rfl⟩
  · exact (lenW_input (input_effect hrun) :)
  · exact (lenW_turn (turn_effect hrun) :)
  · rfl

/-! ### SEED and LEN (R30, R31) -/

/-- No turn of an engine changes its host registers or its latched length. -/
theorem CtlTurn.registers {lenW : Nat} {e : Engine} {c c' : Ctl} (h : CtlTurn lenW e c c') :
    c'.seed = c.seed ∧ c'.len = c.len ∧ c'.lenQ = c.lenQ := by
  cases h <;> exact ⟨rfl, rfl, rfl⟩

/-- Settles O45: of all that a step can do to a control part, only the write of a register and reset change it. -/
theorem seedAndLenChangeOnlyByWrites : Obligations.SeedAndLenChangeOnlyByWrites := by
  intro s t e hstep
  have heffect := ctlEffect_step hstep e
  generalize t.ctl e = c' at heffect ⊢
  constructor
  case left =>
    intro hne
    cases heffect with
    | seed i d hev hw =>
      obtain ⟨rest, hi⟩ := List.head?_eq_some_iff.mp hev
      exact ⟨i, rest, hi, .inl hw⟩
    | reset hev =>
      obtain ⟨rest, hi⟩ := List.head?_eq_some_iff.mp hev
      exact ⟨.reset, rest, hi, .inr rfl⟩
    | turn c' hev h =>
      obtain ⟨hseed, -, -⟩ := h.registers
      exact absurd hseed hne
    | kept | start | len | lenHi => exact absurd rfl hne
  case right =>
    intro hne
    cases heffect with
    | len i d hev hw =>
      obtain ⟨rest, hi⟩ := List.head?_eq_some_iff.mp hev
      exact ⟨i, rest, hi, .inl hw⟩
    | lenHi i d hev hw =>
      obtain ⟨rest, hi⟩ := List.head?_eq_some_iff.mp hev
      exact ⟨i, rest, hi, .inr (.inl hw)⟩
    | reset hev =>
      obtain ⟨rest, hi⟩ := List.head?_eq_some_iff.mp hev
      exact ⟨.reset, rest, hi, .inr (.inr rfl)⟩
    | turn c' hev h =>
      obtain ⟨-, hlen, -⟩ := h.registers
      exact absurd hlen hne
    | kept | start | seed => exact absurd rfl hne

/-! ### The invariant of a sequencer (R26, R28) -/

/-- The lengths of an engine fit `LEN_W` bits and its sequencer stands where R28 says. -/
def SeqOk (lenW : Nat) (e : Engine) (c : Ctl) : Prop :=
  c.Fits lenW ∧ c.Sequenced (blockSize e)

theorem SeqOk.block {lenW : Nat} {e : Engine} {c : Ctl} (h : SeqOk lenW e c) (hp : c.phase = .block) :
    c.off.toNat % blockSize e = 0 ∧ c.off.toNat + blockSize e ≤ c.lenQ.toNat := by
  obtain ⟨-, hblock, -⟩ := h
  exact hblock hp

theorem SeqOk.tail {lenW : Nat} {e : Engine} {c : Ctl} (h : SeqOk lenW e c) (hp : c.phase = .tail) :
    c.off.toNat = blockSize e * (c.lenQ.toNat / blockSize e) := by
  obtain ⟨-, -, htail, -⟩ := h
  exact htail hp

theorem SeqOk.final {lenW : Nat} {e : Engine} {c : Ctl} (h : SeqOk lenW e c) (hp : c.phase = .final) :
    c.off = c.lenQ := by
  obtain ⟨-, -, -, hfinal, -⟩ := h
  exact hfinal hp

theorem sequencersOk_iff (s : State) :
    s.SequencersOk ↔ (1 ≤ s.lenW ∧ s.lenW ≤ 64) ∧ ∀ e, SeqOk s.lenW e (s.ctl e) := by
  refine and_congr_right fun _ => ⟨fun ⟨hh32, hx86, hx64⟩ e => ?_, fun h => ⟨h .h32, h .x86, h .x64⟩⟩
  cases e with
  | h32 => exact hh32
  | x86 => exact hx86
  | x64 => exact hx64

theorem blockSize_pos (e : Engine) : 0 < blockSize e := by cases e <;> decide

/-- Where the offset is a multiple of the block size inside the message, the phase that R27 chooses is the one of R28: with
a full block left BLOCK, and else TAIL at the last multiple. -/
theorem sequenced_blockOrTail {e : Engine} {c : Ctl} (hmul : c.off.toNat % blockSize e = 0)
    (hle : c.off.toNat ≤ c.lenQ.toNat) (hp : c.phase = blockOrTail e (c.lenQ.toNat - c.off.toNat)) :
    c.Sequenced (blockSize e) := by
  rw [blockOrTail] at hp
  split at hp
  case isTrue hfull =>
    refine ⟨fun _ => ⟨hmul, by omega⟩, ?_, ?_, ?_⟩ <;> (intro h; rw [hp] at h; cases h)
  case isFalse hshort =>
    obtain ⟨q, hq⟩ := Nat.dvd_of_mod_eq_zero hmul
    have hdiv : c.lenQ.toNat / blockSize e = q := by
      apply Nat.div_eq_of_lt_le
      · rw [Nat.mul_comm, ← hq]; exact hle
      · rw [Nat.add_mul, Nat.mul_comm, ← hq]; omega
    refine ⟨?_, fun _ => by rw [hdiv, hq], ?_, ?_⟩ <;> (intro h; rw [hp] at h; cases h)

theorem seqOk_start {lenW : Nat} {e : Engine} {c : Ctl} (h : SeqOk lenW e c) : SeqOk lenW e (c.start e) := by
  obtain ⟨⟨hlen, -, -⟩, -⟩ := h
  exact ⟨⟨hlen, hlen, Nat.two_pow_pos lenW⟩, sequenced_blockOrTail (Nat.zero_mod _) (Nat.zero_le _) rfl⟩

theorem seqOk_turn {lenW : Nat} {e : Engine} {c c' : Ctl} (hw : lenW ≤ 64) (h : SeqOk lenW e c)
    (ht : CtlTurn lenW e c c') : SeqOk lenW e c' := by
  obtain ⟨hlen, hlenQ, hoff⟩ := h.1
  cases ht with
  | idle hb => exact h
  | block hp =>
    obtain ⟨hmul, hfull⟩ := h.block hp
    have hnext : (c.off + BitVec.ofNat 64 (blockSize e)).toNat = c.off.toNat + blockSize e :=
      (off_add_of_le hw hlenQ hfull).2
    rw [afterBlock_of_le e hw hlenQ hfull]
    refine ⟨⟨hlen, hlenQ, ?_⟩, sequenced_blockOrTail ?_ ?_ ?_⟩
    · rw [hnext]; exact Nat.lt_of_le_of_lt hfull hlenQ
    · rw [hnext, Nat.add_mod_right, hmul]
    · rw [hnext]; exact hfull
    · rw [hnext]
  | tail hp => exact ⟨⟨hlen, hlenQ, hlenQ⟩, Phase.noConfusion, Phase.noConfusion, fun _ => rfl, Phase.noConfusion⟩
  | final k hp =>
    exact ⟨⟨hlen, hlenQ, hoff⟩, Phase.noConfusion, Phase.noConfusion, Phase.noConfusion, fun _ => h.final hp⟩

theorem seqOk_afterReset {lenW : Nat} (hw : lenW ≤ 64) (e : Engine) (c : Ctl) : SeqOk lenW e (c.afterReset e lenW) :=
  ⟨⟨Nat.two_pow_pos lenW, truncTo_lt lenW _ hw, truncTo_lt lenW _ hw⟩, Phase.noConfusion, Phase.noConfusion,
    Phase.noConfusion, Phase.noConfusion⟩

/-- Every effect on a control part keeps its invariant. -/
theorem seqOk_effect {lenW : Nat} {e : Engine} {ev : Option Input} {c c' : Ctl} (hw : lenW ≤ 64) (h : SeqOk lenW e c)
    (heffect : CtlEffect lenW e ev c c') : SeqOk lenW e c' := by
  obtain ⟨⟨hlen, hlenQ, hoff⟩, hseq⟩ := h
  cases heffect with
  | kept | seed => exact ⟨⟨hlen, hlenQ, hoff⟩, hseq⟩
  | turn c' hev ht => exact seqOk_turn hw ⟨⟨hlen, hlenQ, hoff⟩, hseq⟩ ht
  | start => exact seqOk_start ⟨⟨hlen, hlenQ, hoff⟩, hseq⟩
  | len i d => exact ⟨⟨lenWithLow_lt lenW c.len d hlen, hlenQ, hoff⟩, hseq⟩
  | lenHi i d => exact ⟨⟨lenWithHigh_lt lenW c.len d hw hlen, hlenQ, hoff⟩, hseq⟩
  | reset => exact seqOk_afterReset hw e c

/-- Settles O43: everything a step can do to a control part keeps the lengths within `LEN_W` bits and the sequencer where
R28 says. -/
theorem stepKeepsSequencersOk : Obligations.StepKeepsSequencersOk := by
  intro s t hok hstep
  obtain ⟨hlenW, hseq⟩ := (sequencersOk_iff s).mp hok
  have hsame := lenW_step hstep
  refine ⟨(sequencersOk_iff t).mpr ?_, hsame⟩
  rw [hsame]
  exact ⟨hlenW, fun e => seqOk_effect hlenW.2 (hseq e) (ctlEffect_step hstep e)⟩

/-! ### Admitted events (R220) -/

/-- The decoder's answers on an aligned write. -/
theorem decodeWrite_aligned {A : BitVec 8} (D : Word32) (h : A.extractLsb' 0 2 = 0) :
    decodeWrite A D = .ignoredWrite ∨ ∃ i, decodeWrite A D = .instr i := by
  rw [decodeWrite, if_neg (not_not_intro h)]
  split
  case h_1 | h_5 | h_9 => split; exacts [.inr ⟨_, rfl⟩, .inl rfl]
  case h_13 => exact .inl rfl
  all_goals exact .inr ⟨_, rfl⟩

/-- The decoder's answers on an aligned read. -/
theorem decodeRead_aligned {A : BitVec 8} (h : A.extractLsb' 0 2 = 0) :
    decodeRead A = .zeroRead ∨ ∃ i, decodeRead A = .instr i := by
  rw [decodeRead, if_neg (not_not_intro h)]
  split
  case h_22 => exact .inl rfl
  all_goals exact .inr ⟨_, rfl⟩

theorem address_extractLsb' (T : BitVec 40) (i n : Nat) (h : i + n ≤ 8) :
    (T.extractLsb' 32 8).extractLsb' i n = T.extractLsb' (32 + i) n := by
  refine BitVec.eq_of_getLsbD_eq fun j hj => ?_
  simp [hj, show i + j < 8 by omega, Nat.add_assoc]

theorem runInput_next_of_admitted {s : State} {i : Input} (h : i.admitted s.lenW = true) :
    ∃ t, runInput i s = .next t := by
  cases i with
  | hostWrite T =>
    rw [Input.admitted, decide_eq_true_eq, ← address_extractLsb' T 0 2 (by decide)] at h
    rw [runInput, decode]
    obtain hrow | ⟨i, hrow⟩ := decodeWrite_aligned (T.extractLsb' 0 32) h
    · rw [hrow]; exact ⟨s, rfl⟩
    · rw [hrow]; exact exec_next i s
  | hostRead A =>
    rw [runInput, decode]
    obtain hrow | ⟨i, hrow⟩ := decodeRead_aligned (of_decide_eq_true h)
    · rw [hrow]; exact ⟨s.answer 0, rfl⟩
    · rw [hrow]; exact exec_next i s
  | engineTurn e => exact runEngine_next e s
  | reset => exact ⟨resetEvent s, rfl⟩
  | messageByte e off b => exact ⟨setMessageByte s e off b, if_pos (of_decide_eq_true h)⟩

theorem inputs_write {s t : State} {A : BitVec 8} {D : Word32} (h : WriteEffect s A D t) : t.inputs = s.inputs := by
  cases h with
  | ignored | startH32 | startX86 | startX64 => rfl
  | seed | len | lenHi => exact setCtl_inputs _ _ _

theorem inputs_turn {s t : State} {e : Engine} (h : TurnEffect s e t) : t.inputs = s.inputs := by cases h <;> rfl

theorem inputs_input {s t : State} {i : Input} (h : InputEffect s i t) : t.inputs = s.inputs := by
  cases h with
  | hostWrite T t h => exact inputs_write h
  | hostRead A t h => cases h <;> simp
  | engineTurn e t h => exact inputs_turn h
  | reset => rfl
  | messageByte e off b h => rw [setMessageByte, setMsg_inputs, setCtl_inputs]

/-- A step takes the oldest event off the schedule, where one is left. -/
theorem inputs_step {s t : State} (h : step s = .next t) : t.inputs = s.inputs.tail := by
  rcases step_cases h with ⟨i, rest, hi, hrun⟩ | ⟨hi, e, -, hrun⟩ | ⟨hi, -, rfl⟩
  · rw [hi]; exact (inputs_input (input_effect hrun) :)
  · rw [inputs_turn (turn_effect hrun)]; simp [hi]
  · simp [hi]

theorem admitted_step {s t : State} (h : s.admitted = true) (hstep : step s = .next t) : t.admitted = true := by
  rw [State.admitted, List.all_eq_true] at h ⊢
  rw [inputs_step hstep, lenW_step hstep]
  exact fun i hi => h i (List.mem_of_mem_tail hi)

theorem step_next_of_admitted {s : State} (h : s.admitted = true) : ∃ t, step s = .next t := by
  cases hi : s.inputs with
  | cons i rest =>
    rw [step_cons s i rest hi]
    exact runInput_next_of_admitted (List.all_eq_true.mp h i (by rw [hi]; exact List.mem_cons_self))
  | nil =>
    cases hn : nextEngine s with
    | some e => rw [step_nil_some s e hi hn]; exact runEngine_next e _
    | none => exact ⟨s, step_nil_none s hi hn⟩

/-- Settles O44: the decoder answers every aligned access with a row or an effect of its own, and a step only takes an
event off the schedule. -/
theorem admittedStepsGoOn : Obligations.AdmittedStepsGoOn := by
  intro s h
  obtain ⟨t, hstep⟩ := step_next_of_admitted h
  exact ⟨t, hstep, admitted_step h hstep⟩

end Sys2Proof.Machine
end

section
/-! PROOFS. How long a run takes: every busy engine finishes, and a run takes its steps exactly (spec/70_reset_and_hazards.md
R262, R263). -/

namespace Sys2Proof.Machine

/-! ### The turns that an engine still has to take -/

/-- The turns an engine takes until it is not busy (R262): the blocks left, TAIL and FINAL. -/
def turnsLeft (e : Engine) (c : Ctl) : Nat :=
  match c.phase with
  | .idle => 0
  | .block => c.rest / blockSize e + 2
  | .tail => 2
  | .final => 1
  | .done => 0

theorem turnsLeft_eq_zero_iff (e : Engine) (c : Ctl) : turnsLeft e c = 0 ↔ busyBit c.phase = false := by
  unfold turnsLeft
  cases c.phase <;> simp [busyBit]

/-- Of a run that has `rest` bytes to read, BLOCK and TAIL have the same number of turns left. -/
theorem turnsLeft_blockOrTail {e : Engine} {c : Ctl} (hp : c.phase = blockOrTail e c.rest) :
    turnsLeft e c = c.rest / blockSize e + 2 := by
  rw [blockOrTail] at hp
  split at hp
  case isTrue => rw [turnsLeft, hp]
  case isFalse hshort => rw [turnsLeft, hp, Nat.div_eq_of_lt (Nat.not_le.mp hshort)]

/-- An accepted START has the whole run before it. -/
theorem turnsLeft_start (e : Engine) (c : Ctl) : turnsLeft e (c.start e) = stepsOfRun e c.len.toNat :=
  turnsLeft_blockOrTail rfl

/-- With a full block left, BLOCK reads it. -/
theorem afterBlock_reads {c : Ctl} (e : Engine) {lenW : Nat} (hw : lenW ≤ 64) (hq : c.lenQ.toNat < 2 ^ lenW)
    (hfull : c.off.toNat + blockSize e ≤ c.lenQ.toNat) :
    (c.afterBlock e lenW).off.toNat = c.off.toNat + blockSize e ∧
      (c.afterBlock e lenW).rest = c.rest - blockSize e := by
  have hoff := (off_add_of_le hw hq hfull).2
  rw [afterBlock_of_le e hw hq hfull, Ctl.rest, Ctl.rest, hoff, Nat.sub_add_eq]
  exact ⟨rfl, rfl⟩

theorem rest_of_block {lenW : Nat} {e : Engine} {c : Ctl} (h : SeqOk lenW e c) (hp : c.phase = .block) :
    blockSize e ≤ c.rest :=
  Nat.le_sub_of_add_le (Nat.add_comm _ _ ▸ (h.block hp).2)

/-- A busy engine's turn leaves it one turn fewer to take; an engine that is not busy has none before and after. -/
theorem turnsLeft_turn {lenW : Nat} {e : Engine} {c c' : Ctl} (hw : lenW ≤ 64) (hok : SeqOk lenW e c)
    (h : CtlTurn lenW e c c') : turnsLeft e c' = turnsLeft e c - 1 := by
  cases h with
  | idle hb => rw [(turnsLeft_eq_zero_iff e c).mpr hb]
  | block hp =>
    have hfull := rest_of_block hok hp
    obtain ⟨-, hlenQ, -⟩ := hok.1
    rw [turnsLeft_blockOrTail (c := c.afterBlock e lenW) rfl, (afterBlock_reads e hw hlenQ (hok.block hp).2).2, turnsLeft,
      hp, Nat.div_eq_sub_div (blockSize_pos e) hfull]
    rfl
  | tail hp => rw [turnsLeft, turnsLeft, hp]; rfl
  | final k hp => rw [turnsLeft, turnsLeft, hp]; rfl

/-- An event that is neither a turn nor a START of the engine nor reset leaves its sequencer alone, and its run unmarked
where it does not change the message. -/
theorem sequencer_other {lenW : Nat} {e : Engine} {i : Input} {c c' : Ctl} (h : CtlEffect lenW e (some i) c c')
    (hs : i.starts e = false) (hr : i.isReset = false) (ht : i ≠ .engineTurn e) :
    c'.phase = c.phase ∧ c'.lenQ = c.lenQ ∧ c'.off = c.off ∧
      (i.changesMessage e = false → c'.disturbed = c.disturbed) := by
  cases h with
  | kept x n hx =>
    refine ⟨rfl, rfl, rfl, fun hm => hx.resolve_right ?_⟩
    rintro ⟨j, hev, hj⟩
    cases hev
    exact Bool.false_ne_true (hm.symm.trans hj)
  | seed | len | lenHi => exact ⟨rfl, rfl, rfl, fun _ => rfl⟩
  | turn c' hev h => simp [ht] at hev
  | start j hev hj => cases hev; exact absurd (hs.symm.trans hj) Bool.false_ne_true
  | reset hev => cases hev; cases hr

theorem turnsLeft_congr (e : Engine) {c c' : Ctl} (hp : c'.phase = c.phase) (hq : c'.lenQ = c.lenQ) (ho : c'.off = c.off) :
    turnsLeft e c' = turnsLeft e c := by
  rw [turnsLeft, turnsLeft, Ctl.rest, Ctl.rest, hp, hq, ho]

/-! ### Every busy engine finishes (R263) -/

/-- The turns that the three engines together still have to take. -/
def State.turnsLeft (s : State) : Nat :=
  Machine.turnsLeft .h32 (s.ctl .h32) + Machine.turnsLeft .x86 (s.ctl .x86) + Machine.turnsLeft .x64 (s.ctl .x64)

theorem state_turnsLeft_eq_zero_iff (s : State) : s.turnsLeft = 0 ↔ ∀ e, busyBit (s.ctl e).phase = false := by
  simp only [State.turnsLeft, Nat.add_eq_zero_iff, turnsLeft_eq_zero_iff]
  refine ⟨fun ⟨⟨hh32, hx86⟩, hx64⟩ e => ?_, fun h => ⟨⟨h .h32, h .x86⟩, h .x64⟩⟩
  cases e with
  | h32 => exact hh32
  | x86 => exact hx86
  | x64 => exact hx64

/-- A busy engine's turn is one turn fewer for the three together. -/
theorem state_turnsLeft_turn {s t : State} {e : Engine} (hok : s.SequencersOk) (hb : busyBit (s.ctl e).phase = true)
    (h : TurnEffect s e t) : s.turnsLeft = t.turnsLeft + 1 := by
  obtain ⟨⟨-, hw⟩, hseq⟩ := (sequencersOk_iff s).mp hok
  obtain ⟨hown, hother⟩ := ctl_turn h
  have hless := turnsLeft_turn hw (hseq e) hown
  have hpos : turnsLeft e (s.ctl e) ≠ 0 := fun h0 => by rw [turnsLeft_eq_zero_iff, hb] at h0; cases h0
  unfold State.turnsLeft
  cases e with
  | h32 => rw [hother .x86 (by decide), hother .x64 (by decide)]; omega
  | x86 => rw [hother .h32 (by decide), hother .x64 (by decide)]; omega
  | x64 => rw [hother .h32 (by decide), hother .x86 (by decide)]; omega

theorem run_succ {s t : State} (n : Nat) (h : step s = .next t) :
    Host.Core.run core (n + 1) s = Host.Core.run core n t := by
  have hcore : core.step s = .next t := h
  simp only [Host.Core.run, hcore]

/-- A turn neither starts a run nor ends one but in DONE. -/
theorem idle_turn_iff {s t : State} {e' : Engine} (h : TurnEffect s e' t) (e : Engine) :
    (t.ctl e).phase = .idle ↔ (s.ctl e).phase = .idle := by
  rcases phase_turn h e with hsame | ⟨hb, hp⟩
  · rw [hsame]
  · refine iff_of_false hp fun hidle => ?_
    rw [hidle] at hb
    cases hb

/-- With no event left, as many steps as the engines have turns left end with none of them busy. -/
theorem run_turnsLeft (n : Nat) {s : State} (hok : s.SequencersOk) (hi : s.inputs = []) (hn : s.turnsLeft = n) :
    ∃ t : State, Host.Core.run core n s = .next t ∧
      ∀ e, busyBit (t.ctl e).phase = false ∧ ((t.ctl e).phase = .idle ↔ (s.ctl e).phase = .idle) := by
  induction n generalizing s with
  | zero => exact ⟨s, rfl, fun e => ⟨(state_turnsLeft_eq_zero_iff s).mp hn e, Iff.rfl⟩⟩
  | succ n ih =>
    obtain ⟨t, hstep⟩ : ∃ t, step s = .next t := step_next_of_admitted (by rw [State.admitted, hi]; rfl)
    rcases step_cases hstep with ⟨i, rest, hcons, -⟩ | ⟨-, e, hb, hrun⟩ | ⟨-, hb, -⟩
    · rw [hi] at hcons; cases hcons
    · have heffect := turn_effect hrun
      rw [← ctl_withTurns s (s.turns + 1) e] at hb
      have hless : s.turnsLeft = t.turnsLeft + 1 :=
        state_turnsLeft_turn (s := { s with turns := s.turns + 1 }) hok hb heffect
      obtain ⟨u, hu, hend⟩ := ih (stepKeepsSequencersOk s t hok hstep).1 (by rw [inputs_step hstep, hi]; rfl) (by omega)
      refine ⟨u, (run_succ n hstep).trans hu, fun e' => ⟨(hend e').1, (hend e').2.trans ?_⟩⟩
      rw [idle_turn_iff heffect, ctl_withTurns]
    · rw [(state_turnsLeft_eq_zero_iff s).mpr hb] at hn
      cases hn

/-- Settles O52: each step without an event is a busy engine's turn, and the number of turns left falls by one in it. -/
theorem busyEnginesFinish : Obligations.BusyEnginesFinish := by
  intro s hok hi
  obtain ⟨t, hrun, hend⟩ := run_turnsLeft s.turnsLeft hok hi rfl
  refine ⟨s.turnsLeft, t, hrun, fun e => ?_⟩
  obtain ⟨hb, hidle⟩ := hend e
  exact ⟨hidle.mpr, fun hne => ((busyBit_eq_false_iff _).mp hb).resolve_left (hne ∘ hidle.mp)⟩

/-! ### A run along a schedule (R262) -/

/-- What every step on an event of a schedule keeps holds when the schedule has run out. -/
theorem run_inputs {Inv : State → Prop} {good : Input → Prop}
    (hstep : ∀ s t i, s.inputs.head? = some i → good i → step s = .next t → Inv s → Inv t)
    (events : List Input) {s : State} (hi : s.inputs = events) (hadm : s.admitted = true) (hgood : ∀ i ∈ events, good i)
    (hs : Inv s) : ∃ t : State, Host.Core.run core events.length s = .next t ∧ t.inputs = [] ∧ Inv t := by
  induction events generalizing s with
  | nil => exact ⟨s, rfl, hi, hs⟩
  | cons i rest ih =>
    obtain ⟨t, ht⟩ := step_next_of_admitted hadm
    obtain ⟨hgoodi, hgoodrest⟩ := List.forall_mem_cons.mp hgood
    have hit : t.inputs = rest := by rw [inputs_step ht, hi]; rfl
    obtain ⟨u, hu, hend⟩ :=
      ih hit (admitted_step hadm ht) hgoodrest (hstep s t i (by rw [hi]; rfl) hgoodi ht hs)
    exact ⟨u, (run_succ rest.length ht).trans hu, hend⟩

/-- The turns of `e` on the schedule fall short of what its run still takes by `short`. -/
structure RunShort (e : Engine) (short : Nat) (s : State) : Prop where
  ok : s.SequencersOk
  ran : (s.ctl e).phase ≠ .idle
  left : turnsLeft e (s.ctl e) - s.inputs.count (.engineTurn e) = short

theorem runShort_step {e : Engine} {short : Nat} {s t : State} {i : Input} (hi : s.inputs.head? = some i)
    (hs : i.starts e = false) (hr : i.isReset = false) (hstep : step s = .next t) (h : RunShort e short s) :
    RunShort e short t := by
  obtain ⟨hok, hran, hleft⟩ := h
  obtain ⟨rest, hcons⟩ := List.head?_eq_some_iff.mp hi
  have hrest : t.inputs = rest := by rw [inputs_step hstep, hcons]; rfl
  obtain ⟨⟨-, hw⟩, hseq⟩ := (sequencersOk_iff s).mp hok
  rw [hcons] at hleft
  have hok' := (stepKeepsSequencersOk s t hok hstep).1
  by_cases ht : i = .engineTurn e
  · subst ht
    rw [step_engineTurn hcons] at hstep
    have heffect := turn_effect hstep
    have hless := turnsLeft_turn hw (by rw [ctl_withInputs]; exact hseq e) (ctl_turn heffect).1
    rw [ctl_withInputs s rest e] at hless
    refine ⟨hok', fun hidle => hran ?_, ?_⟩
    · rwa [idle_turn_iff heffect, ctl_withInputs] at hidle
    · rw [List.count_cons_self] at hleft
      rw [hrest, hless]
      omega
  · have heffect := ctlEffect_step hstep e
    rw [hi] at heffect
    obtain ⟨hphase, hlenQ, hoff, -⟩ := sequencer_other heffect hs hr ht
    rw [List.count_cons_of_ne ht] at hleft
    exact ⟨hok', hphase ▸ hran, by rw [hrest, turnsLeft_congr e hphase hlenQ hoff, hleft]⟩

/-! ### An accepted START (R140, R160, R180, R200) -/

/-- The state after an accepted START of an engine. -/
def State.started (s : State) : Engine → State
  | .h32 => { s with h32 := { ctl := s.h32.ctl.start .h32, h1 := s.h32.ctl.seed } }
  | .x86 =>
    { s with x86 := x86Of (s.x86.ctl.start .x86) ⟨s.x86.ctl.seed, s.x86.ctl.seed, s.x86.ctl.seed, s.x86.ctl.seed⟩ }
  | .x64 =>
    { s with x64 := x64Of (s.x64.ctl.start .x64) ⟨s.x64.ctl.seed.setWidth 64, s.x64.ctl.seed.setWidth 64⟩ }

@[simp] theorem started_ctl (s : State) (e : Engine) : (s.started e).ctl e = (s.ctl e).start e := by cases e <;> rfl

@[simp] theorem started_inputs (s : State) (e : Engine) : (s.started e).inputs = s.inputs := by cases e <;> rfl

theorem runInput_start {s : State} {e : Engine} {D : Word32} (hD : D.getLsbD 0 = true)
    (hb : busyBit (s.ctl e).phase = false) : runInput (.hostWrite (bank e ++ D)) s = .next (s.started e) := by
  have haccepted := (busyBit_eq_false_iff _).mp hb
  rw [runInput, decode_write]
  cases e with
  | h32 =>
    have hrow : decodeWrite (bank .h32) D = .instr (.h32Start D) := if_pos hD
    rw [hrow, runDecoded_instr, exec_h32Start hD]
    exact congrArg _ (if_pos haccepted)
  | x86 =>
    have hrow : decodeWrite (bank .x86) D = .instr (.x86Start D) := if_pos hD
    rw [hrow, runDecoded_instr, exec_x86Start hD]
    exact congrArg _ (if_pos haccepted)
  | x64 =>
    have hrow : decodeWrite (bank .x64) D = .instr (.x64Start D) := if_pos hD
    rw [hrow, runDecoded_instr, exec_x64Start hD]
    exact congrArg _ (if_pos haccepted)

theorem starts_iff {e : Engine} {T : BitVec 40} (h : (Input.hostWrite T).starts e = true) :
    ∃ D : Word32, D.getLsbD 0 = true ∧ T = bank e ++ D := by
  simp only [Input.starts, Bool.and_eq_true, decide_eq_true_eq] at h
  obtain ⟨haddr, hbit⟩ := h
  refine ⟨T.extractLsb' 0 32, by simpa using hbit, ?_⟩
  rw [← haddr]
  exact write_eq_append T

theorem step_start {s : State} {e : Engine} {T : BitVec 40} {events : List Input} (hi : s.inputs = .hostWrite T :: events)
    (hs : (Input.hostWrite T).starts e = true) (hb : busyBit (s.ctl e).phase = false) :
    step s = .next (({ s with inputs := events } : State).started e) := by
  obtain ⟨D, hD, rfl⟩ := starts_iff hs
  rw [step_cons s _ events hi]
  exact runInput_start hD (by rwa [ctl_withInputs])

/-- After an accepted START the schedule falls short of the run by what it lacks of `floor(len / BS) + 2` turns. -/
theorem runShort_start {s t : State} {e : Engine} {T : BitVec 40} {events : List Input} (hok : s.SequencersOk)
    (hi : s.inputs = .hostWrite T :: events) (hs : (Input.hostWrite T).starts e = true)
    (hb : busyBit (s.ctl e).phase = false) (hstep : step s = .next t) :
    RunShort e (stepsOfRun e (s.ctl e).len.toNat - events.count (.engineTurn e)) t := by
  have hok' := (stepKeepsSequencersOk s t hok hstep).1
  rw [step_start hi hs hb] at hstep
  cases hstep
  refine ⟨hok', ?_, ?_⟩
  · rw [started_ctl]; exact blockOrTail_ne_idle _ _
  · rw [started_ctl, ctl_withInputs, started_inputs, turnsLeft_start]

/-- Settles O53: the turns that the schedule lacks of the run stay the same in every step; with no event left they are the
turns that the engine still has to take, and it is busy exactly where there are some. -/
theorem runTakesItsStepsExactly : Obligations.RunTakesItsStepsExactly := by
  intro s e T events hok hadm hb hi hs hevents
  have hstep := step_start hi hs hb
  obtain ⟨t, hrun, hnil, -, hran, hleft⟩ :=
    run_inputs (good := fun i => i.starts e = false ∧ i.isReset = false)
      (fun s t i hhead hgood hstep h => runShort_step hhead hgood.1 hgood.2 hstep h)
      events (started_inputs _ _) (admitted_step hadm hstep) hevents (runShort_start hok hi hs hb hstep)
  refine ⟨t, (run_succ _ hstep).trans hrun, ?_⟩
  rw [hnil, List.count_nil, Nat.sub_zero] at hleft
  have hbusy : busyBit (t.ctl e).phase = false ↔ stepsOfRun e (s.ctl e).len.toNat ≤ events.count (.engineTurn e) := by
    rw [← turnsLeft_eq_zero_iff e, hleft, Nat.sub_eq_zero_iff_le]
  split
  case isTrue hshort => exact (Bool.not_eq_false _).mp fun h => absurd (hbusy.mp h) (Nat.not_le.mpr hshort)
  case isFalse henough =>
    exact ((busyBit_eq_false_iff _).mp (hbusy.mpr (Nat.not_lt.mp henough))).resolve_left hran

end Sys2Proof.Machine
end

section
/-! PROOFS. Reads of the DIGEST words (spec/44_host_interface.md R205, spec/10_state.md R34 to R36). -/

namespace Sys2Proof.Machine

theorem readDigest_of_done {s : State} {e : Engine} (h : (s.ctl e).phase = .done) (w : Word32) :
    readDigest e w s = { s with answers := w :: s.answers } := if_pos h

theorem readDigest_of_not_done {s : State} {e : Engine} (h : (s.ctl e).phase ≠ .done) (w : Word32) :
    readDigest e w s = (s.setCtl e ((s.ctl e).drew 1)).answer (free32 e (s.ctl e).draws) := if_neg h

theorem exec_h32RdDigest0 (s : State) : exec .h32RdDigest0 s = .next (readDigest .h32 s.h32.h1 s) := rfl
theorem exec_x86RdDigest0 (s : State) : exec .x86RdDigest0 s = .next (readDigest .x86 s.x86.h1 s) := rfl
theorem exec_x86RdDigest1 (s : State) : exec .x86RdDigest1 s = .next (readDigest .x86 s.x86.h2 s) := rfl
theorem exec_x86RdDigest2 (s : State) : exec .x86RdDigest2 s = .next (readDigest .x86 s.x86.h3 s) := rfl
theorem exec_x86RdDigest3 (s : State) : exec .x86RdDigest3 s = .next (readDigest .x86 s.x86.h4 s) := rfl
theorem exec_x64RdDigest0 (s : State) : exec .x64RdDigest0 s = .next (readDigest .x64 (lowHalf s.x64.h1) s) := rfl
theorem exec_x64RdDigest1 (s : State) : exec .x64RdDigest1 s = .next (readDigest .x64 (highHalf s.x64.h1) s) := rfl
theorem exec_x64RdDigest2 (s : State) : exec .x64RdDigest2 s = .next (readDigest .x64 (lowHalf s.x64.h2) s) := rfl
theorem exec_x64RdDigest3 (s : State) : exec .x64RdDigest3 s = .next (readDigest .x64 (highHalf s.x64.h2) s) := rfl

/-- The two halves of a 64-bit accumulator are the accumulator (R36). -/
theorem highHalf_append_lowHalf (h : Word64) : highHalf h ++ lowHalf h = h := by
  have hsplit : h.extractLsb' 32 32 ++ h.extractLsb' 0 32 = h.extractLsb' 0 64 :=
    BitVec.extractLsb'_append_extractLsb'_eq_extractLsb' rfl
  rw [highHalf, lowHalf, hsplit, BitVec.extractLsb'_eq_self]

/-- The reads of H32's digest in DONE. -/
theorem h32_digest_of_done {s : State} (h : s.h32.ctl.phase = .done) :
    exec .h32RdDigest0 s = .next { s with answers := s.h32.h1 :: s.answers } := by
  rw [exec_h32RdDigest0, readDigest_of_done (e := .h32) h]

/-- The reads of X86's digest in DONE. -/
theorem x86_digest_of_done {s : State} (h : s.x86.ctl.phase = .done) :
    exec .x86RdDigest0 s = .next { s with answers := s.x86.h1 :: s.answers } ∧
      exec .x86RdDigest1 s = .next { s with answers := s.x86.h2 :: s.answers } ∧
      exec .x86RdDigest2 s = .next { s with answers := s.x86.h3 :: s.answers } ∧
      exec .x86RdDigest3 s = .next { s with answers := s.x86.h4 :: s.answers } := by
  have hread := readDigest_of_done (e := .x86) h
  exact
    ⟨(exec_x86RdDigest0 s).trans (congrArg _ (hread _)), (exec_x86RdDigest1 s).trans (congrArg _ (hread _)),
      (exec_x86RdDigest2 s).trans (congrArg _ (hread _)), (exec_x86RdDigest3 s).trans (congrArg _ (hread _))⟩

/-- The reads of X64's digest in DONE. -/
theorem x64_digest_of_done {s : State} (h : s.x64.ctl.phase = .done) :
    ∃ d0 d1 d2 d3 : Word32, d1 ++ d0 = s.x64.h1 ∧ d3 ++ d2 = s.x64.h2 ∧
      exec .x64RdDigest0 s = .next { s with answers := d0 :: s.answers } ∧
      exec .x64RdDigest1 s = .next { s with answers := d1 :: s.answers } ∧
      exec .x64RdDigest2 s = .next { s with answers := d2 :: s.answers } ∧
      exec .x64RdDigest3 s = .next { s with answers := d3 :: s.answers } := by
  have hread := readDigest_of_done (e := .x64) h
  exact
    ⟨_, _, _, _, highHalf_append_lowHalf _, highHalf_append_lowHalf _,
      (exec_x64RdDigest0 s).trans (congrArg _ (hread _)), (exec_x64RdDigest1 s).trans (congrArg _ (hread _)),
      (exec_x64RdDigest2 s).trans (congrArg _ (hread _)), (exec_x64RdDigest3 s).trans (congrArg _ (hread _))⟩

end Sys2Proof.Machine

namespace Sys2Proof.HostPort

open Sys2Proof.Machine

/-- Settles O17: in DONE each read answers its accumulator or half of one; outside DONE every read of an engine draws the
same free value and counts the draw. -/
theorem readDigest : Obligations.ReadDigest := by
  intro s
  refine ⟨h32_digest_of_done, x86_digest_of_done, x64_digest_of_done, fun h => ?h32, fun h => ?x86, fun h => ?x64⟩
  case h32 =>
    have hread := readDigest_of_not_done (e := .h32) h
    exact (exec_h32RdDigest0 s).trans (congrArg _ (hread _))
  case x86 =>
    have hread := readDigest_of_not_done (e := .x86) h
    exact
      ⟨(exec_x86RdDigest0 s).trans (congrArg _ (hread _)), (exec_x86RdDigest1 s).trans (congrArg _ (hread _)),
        (exec_x86RdDigest2 s).trans (congrArg _ (hread _)), (exec_x86RdDigest3 s).trans (congrArg _ (hread _))⟩
  case x64 =>
    have hread := readDigest_of_not_done (e := .x64) h
    exact
      ⟨(exec_x64RdDigest0 s).trans (congrArg _ (hread _)), (exec_x64RdDigest1 s).trans (congrArg _ (hread _)),
        (exec_x64RdDigest2 s).trans (congrArg _ (hread _)), (exec_x64RdDigest3 s).trans (congrArg _ (hread _))⟩

end Sys2Proof.HostPort
end

section
/-! PROOFS. The accumulators of an engine, and the events that leave them alone (spec/20_memory.md R71,
spec/44_host_interface.md R205). -/

namespace Sys2Proof.Machine

/-! ### The accumulators of an engine as one value (R21 to R23) -/

/-- The type of the accumulators of an engine. -/
abbrev Acc : Engine → Type
  | .h32 => Word32
  | .x86 => Acc4
  | .x64 => Acc2

/-- The accumulators of an engine. -/
def State.acc (s : State) : (e : Engine) → Acc e
  | .h32 => s.h32.h1
  | .x86 => s.x86.acc
  | .x64 => s.x64.acc

@[simp] theorem acc_answer (s : State) (v : Word32) (e : Engine) : (s.answer v).acc e = s.acc e := by cases e <;> rfl

@[simp] theorem acc_setCtl (s : State) (e' : Engine) (c : Ctl) (e : Engine) : (s.setCtl e' c).acc e = s.acc e := by
  cases e with
  | h32 => exact setCtl_h32_h1 s e' c
  | x86 => exact setCtl_x86_acc s e' c
  | x64 => exact setCtl_x64_acc s e' c

@[simp] theorem acc_setMsg (s : State) (e' : Engine) (m : Memory) (e : Engine) : (s.setMsg e' m).acc e = s.acc e := by
  cases e <;> cases e' <;> rfl

theorem acc_withInputs (s : State) (rest : List Input) (e : Engine) :
    ({ s with inputs := rest } : State).acc e = s.acc e := by cases e <;> rfl

theorem acc_withTurns (s : State) (n : Nat) (e : Engine) : ({ s with turns := n } : State).acc e = s.acc e := by
  cases e <;> rfl

/-! ### Everything but a turn, a START and reset leaves them alone -/

theorem acc_write {s t : State} {T : BitVec 40} {e : Engine}
    (h : WriteEffect s (T.extractLsb' 32 8) (T.extractLsb' 0 32) t) (hs : (Input.hostWrite T).starts e = false) :
    t.acc e = s.acc e := by
  have hnot {e' : Engine} (ha : T.extractLsb' 32 8 = bank e') (hd : (T.extractLsb' 0 32).getLsbD 0 = true) : e ≠ e' := by
    rintro rfl
    exact Bool.false_ne_true (hs.symm.trans (starts_hostWrite ha hd))
  cases h with
  | ignored => rfl
  | startH32 ha hd hb =>
    have he := hnot ha hd
    cases e with
    | h32 => exact absurd rfl he
    | x86 | x64 => rfl
  | startX86 ha hd hb =>
    have he := hnot ha hd
    cases e with
    | x86 => exact absurd rfl he
    | h32 | x64 => rfl
  | startX64 ha hd hb =>
    have he := hnot ha hd
    cases e with
    | x64 => exact absurd rfl he
    | h32 | x86 => rfl
  | seed | len | lenHi => exact acc_setCtl _ _ _ _

theorem acc_read {s t : State} (h : ReadEffect s t) (e : Engine) : t.acc e = s.acc e := by
  cases h with
  | answered v => exact acc_answer s v e
  | drew e' hp => rw [acc_answer, acc_setCtl]

theorem acc_turn_other {s t : State} {e e' : Engine} (h : TurnEffect s e' t) (he : e ≠ e') : t.acc e = s.acc e := by
  cases h with
  | idle => rfl
  | h32Block | h32Tail | h32Final | h32Disturbed =>
    cases e with
    | h32 => exact absurd rfl he
    | x86 | x64 => rfl
  | x86Block | x86Tail | x86Final | x86Disturbed =>
    cases e with
    | x86 => exact absurd rfl he
    | h32 | x64 => rfl
  | x64Block | x64Tail | x64Final | x64Disturbed =>
    cases e with
    | x64 => exact absurd rfl he
    | h32 | x86 => rfl

theorem acc_input {s t : State} {i : Input} {e : Engine} (h : InputEffect s i t) (hs : i.starts e = false)
    (hr : i.isReset = false) (ht : i ≠ .engineTurn e) : t.acc e = s.acc e := by
  cases h with
  | hostWrite T t h => exact acc_write h hs
  | hostRead A t h => exact acc_read h e
  | engineTurn e' t h => exact acc_turn_other h (by rintro rfl; exact ht rfl)
  | reset => cases hr
  | messageByte e' off b h => rw [setMessageByte, acc_setMsg, acc_setCtl]

theorem acc_step_done {s t : State} {e : Engine} (hstep : step s = .next t) (hdone : (s.ctl e).phase = .done)
    (hev : ∀ i rest, s.inputs = i :: rest → i.starts e = false ∧ i.isReset = false) : t.acc e = s.acc e := by
  rcases step_cases hstep with ⟨i, rest, hi, hrun⟩ | ⟨-, e', hb, hrun⟩ | ⟨-, -, rfl⟩
  · obtain ⟨hs, hr⟩ := hev i rest hi
    by_cases ht : i = .engineTurn e
    · subst ht
      rw [runInput, runEngine_of_done (by rwa [ctl_withInputs])] at hrun
      cases hrun
      exact acc_withInputs s rest e
    · exact (acc_input (input_effect hrun) hs hr ht).trans (acc_withInputs s rest e)
  · have he : e ≠ e' := by
      rintro rfl
      rw [hdone] at hb
      cases hb
    exact (acc_turn_other (turn_effect hrun) he).trans (acc_withTurns s _ e)
  · rfl

/-- Settles O46: DONE is left by a START or reset only, and an engine in DONE has no turn to take. -/
theorem digestStaysUntilStartOrReset : Obligations.DigestStaysUntilStartOrReset := by
  intro s t e hstep hdone hev
  have hacc := acc_step_done hstep hdone hev
  refine ⟨by_contra fun hleft => ?_, ?_, ?_, ?_⟩
  · obtain ⟨i, rest, hi, hcause⟩ := ((HostPort.onlyStartOrResetEndsDone.2 s t e hstep).1 hdone hleft)
    obtain ⟨hs, hr⟩ := hev i rest hi
    simp [hs, hr] at hcause
  all_goals
    rintro rfl
    exact hacc

end Sys2Proof.Machine
end

section
/-! PROOFS. Message spaces: who writes them, and their canonical form (spec/20_memory.md R60, R61; spec/10_state.md R39;
log 8). -/

namespace Sys2Proof.Machine

/-! ### Everything an event can do to a message space -/

theorem msg_input {s t : State} {i : Input} {e : Engine} (h : InputEffect s i t) (hm : i.changesMessage e = false) :
    t.msg e = s.msg e := by
  cases h with
  | hostWrite T t h => exact msg_write h e
  | hostRead A t h => cases h <;> simp
  | engineTurn e' t h => exact msg_turn h e
  | reset => exact resetEvent_msg s e
  | messageByte e' off b h =>
    have he : e ≠ e' := Ne.symm (of_decide_eq_false hm)
    rw [setMessageByte, setMsg_msg_other _ _ he, setCtl_msg]

theorem msg_setMessageByte (s : State) (e : Engine) (off : Word64) (b : Byte) :
    (setMessageByte s e off b).msg e = memWrite (s.msg e) off.toNat b := setMsg_msg_same _ _ _

theorem msg_withInputs (s : State) (rest : List Input) (e : Engine) :
    ({ s with inputs := rest } : State).msg e = s.msg e := by cases e <;> rfl

theorem msg_withTurns (s : State) (n : Nat) (e : Engine) : ({ s with turns := n } : State).msg e = s.msg e := by
  cases e <;> rfl

/-- Everything a step can do to a message space, which goes from `m` to `m'`; `ev` is the event that the step takes off the
schedule, where one is left. -/
inductive MsgEffect (lenW : Nat) (e : Engine) (ev : Option Input) (m : Memory) : Memory → Prop
  | kept (hev : ∀ i, ev = some i → i.changesMessage e = false) : MsgEffect lenW e ev m m
  | wrote (off : Word64) (b : Byte) (hev : ev = some (.messageByte e off b)) (hoff : off.toNat < 2 ^ lenW) :
      MsgEffect lenW e ev m (memWrite m off.toNat b)

theorem msgEffect_input {s t : State} {i : Input} (h : InputEffect s i t) (e : Engine) :
    MsgEffect s.lenW e (some i) (s.msg e) (t.msg e) := by
  cases hm : i.changesMessage e with
  | false =>
    rw [msg_input h hm]
    exact .kept fun j hj => by cases hj; exact hm
  | true =>
    cases h with
    | messageByte e' off b hoff =>
      obtain rfl : e' = e := of_decide_eq_true hm
      rw [msg_setMessageByte]
      exact .wrote off b rfl hoff
    | hostWrite | hostRead | engineTurn | reset => cases hm

theorem msgEffect_step {s t : State} (h : step s = .next t) (e : Engine) :
    MsgEffect s.lenW e s.inputs.head? (s.msg e) (t.msg e) := by
  rcases step_cases h with ⟨i, rest, hi, hrun⟩ | ⟨hi, e', -, hrun⟩ | ⟨hi, -, rfl⟩
  · have heffect := msgEffect_input (input_effect hrun) e
    rwa [msg_withInputs, ← List.head?_cons (l := rest), ← hi] at heffect
  · rw [msg_turn (turn_effect hrun), msg_withTurns]
    exact .kept fun i hev => by rw [hi] at hev; cases hev
  · exact .kept fun i hev => by rw [hi] at hev; cases hev

theorem messagesOk_iff (s : State) : s.MessagesOk ↔ ∀ e, (s.msg e).InSpace s.lenW := by
  refine ⟨fun ⟨hh32, hx86, hx64⟩ e => ?_, fun h => ⟨h .h32, h .x86, h .x64⟩⟩
  cases e with
  | h32 => exact hh32
  | x86 => exact hx86
  | x64 => exact hx64

/-- Settles O38: a step leaves a message space as it is or writes one byte inside the space, which keeps the form. -/
theorem stepKeepsMessagesOk : Obligations.StepKeepsMessagesOk := by
  intro s t hok hstep
  rw [messagesOk_iff] at hok ⊢
  rw [lenW_step hstep]
  intro e
  have heffect := msgEffect_step hstep e
  generalize t.msg e = m' at heffect
  cases heffect with
  | kept => exact hok e
  | wrote off b hev hoff => exact memWrite_inSpace _ _ _ b hoff (hok e)

/-- Settles O37: the only effect on a message space but none is the write of the platform's byte, which reads back there
and leaves every other byte. -/
theorem onlyThePlatformWritesMessages : Obligations.OnlyThePlatformWritesMessages := by
  intro s t e hok hstep
  have hcanonical : (s.msg e).wf = true := ((messagesOk_iff s).mp hok e).1
  have heffect := msgEffect_step hstep e
  generalize t.msg e = m' at heffect ⊢
  cases heffect with
  | kept hev =>
    refine ⟨fun _ => rfl, fun off b rest hi => ?_⟩
    have hnot := hev (.messageByte e off b) (by rw [hi]; rfl)
    exact absurd rfl (of_decide_eq_false hnot)
  | wrote off b hev hoff =>
    obtain ⟨rest, hi⟩ := List.head?_eq_some_iff.mp hev
    refine ⟨fun hnot => absurd rfl (of_decide_eq_false (hnot _ rest hi)), fun off' b' rest' hi' => ?_⟩
    obtain ⟨⟨-, rfl, rfl⟩, -⟩ : (e = e ∧ off = off' ∧ b = b') ∧ rest = rest' := by simpa [hi] using hi'
    exact ⟨memRead_memWrite_same _ _ _ hcanonical, fun k hk => memRead_memWrite_other _ _ hk⟩

/-! ### The canonical form (log 8) -/

theorem wfFrom_cons_iff (lo k : Nat) (b : Byte) (m : Memory) :
    Memory.wfFrom lo ((k, b) :: m) = true ↔ lo ≤ k ∧ b ≠ unlistedByte ∧ Memory.wfFrom (k + 1) m = true := by
  simp only [Memory.wfFrom, Bool.and_eq_true, decide_eq_true_eq, and_assoc]

theorem memRead_cons_same (k : Nat) (b : Byte) (m : Memory) : memRead ((k, b) :: m) k = b := if_pos rfl

theorem memRead_cons_other {k a : Nat} (b : Byte) (m : Memory) (h : k ≠ a) : memRead ((k, b) :: m) a = memRead m a :=
  if_neg h

/-- Below the least offset that the canonical form allows, nothing is listed. -/
theorem memRead_of_lt {m : Memory} {lo a : Nat} (h : Memory.wfFrom lo m = true) (ha : a < lo) :
    memRead m a = unlistedByte := by
  induction m generalizing lo with
  | nil => rfl
  | cons cell m ih =>
    obtain ⟨k, b⟩ := cell
    obtain ⟨hk, -, hm⟩ := (wfFrom_cons_iff lo k b m).mp h
    rw [memRead_cons_other b m (by omega)]
    exact ih hm (by omega)

/-- An offset at which a canonical list reads as a listed byte is none of those below its least offset. -/
theorem le_of_memRead_ne {m : Memory} {lo a : Nat} (hm : Memory.wfFrom lo m = true) (h : memRead m a ≠ unlistedByte) :
    lo ≤ a :=
  Nat.not_lt.mp fun ha => h (memRead_of_lt hm ha)

theorem eq_of_memRead_eq {m m' : Memory} {lo lo' : Nat} (hm : Memory.wfFrom lo m = true)
    (hm' : Memory.wfFrom lo' m' = true) (h : ∀ a, memRead m a = memRead m' a) : m = m' := by
  induction m generalizing m' lo lo' with
  | nil =>
    cases m' with
    | nil => rfl
    | cons cell m' =>
      obtain ⟨k, b⟩ := cell
      obtain ⟨-, hb, -⟩ := (wfFrom_cons_iff lo' k b m').mp hm'
      exact absurd ((h k).trans (memRead_cons_same k b m')).symm hb
  | cons cell m ih =>
    obtain ⟨k, b⟩ := cell
    obtain ⟨-, hb, htail⟩ := (wfFrom_cons_iff lo k b m).mp hm
    cases m' with
    | nil => exact absurd ((memRead_cons_same k b m).symm.trans (h k)) hb
    | cons cell' m' =>
      obtain ⟨k', b'⟩ := cell'
      obtain ⟨-, hb', htail'⟩ := (wfFrom_cons_iff lo' k' b' m').mp hm'
      have hle : k' ≤ k := le_of_memRead_ne ((wfFrom_cons_iff k' k' b' m').mpr ⟨le_rfl, hb', htail'⟩)
        (by rwa [← h k, memRead_cons_same])
      have hge : k ≤ k' := le_of_memRead_ne ((wfFrom_cons_iff k k b m).mpr ⟨le_rfl, hb, htail⟩)
        (by rwa [h k', memRead_cons_same])
      obtain rfl : k = k' := le_antisymm hge hle
      have hbyte := h k
      rw [memRead_cons_same, memRead_cons_same] at hbyte
      have hbelow (a : Nat) : memRead m a = memRead m' a := by
        rcases Nat.lt_or_ge a (k + 1) with hlow | hhigh
        · rw [memRead_of_lt htail hlow, memRead_of_lt htail' hlow]
        · have hne : k ≠ a := by omega
          rw [← memRead_cons_other b m hne, h a, memRead_cons_other b' m' hne]
      rw [hbyte, ih htail htail' hbelow]

/-- Settles O39: the lists agree cell by cell, since the least offset at which a byte is listed is the same in both. -/
theorem canonicalMessagesAreEqual : Obligations.CanonicalMessagesAreEqual := by
  intro m m' hm hm' h
  exact eq_of_memRead_eq hm hm' h

end Sys2Proof.Machine
end

section
/-! PROOFS. The digest of a run is the hash of its message, in every interleaving (spec/41_hash32.md R147,
spec/42_hash128_x86.md R167, spec/43_hash128_x64.md R187). -/

namespace Sys2Proof.Machine

/-! ### The arithmetic of each operation, on the bytes that are still unread -/

/-- The accumulators after BLOCK, of which the block is the first of the unread bytes (R141, R161, R181). -/
def absorbBlock : (e : Engine) → Acc e → List Byte → Acc e
  | .h32, h, bytes => h32Round h (wordAt 32 4 bytes 0)
  | .x86, a, bytes => x86Round a (wordAt 32 4 bytes 0) (wordAt 32 4 bytes 1) (wordAt 32 4 bytes 2) (wordAt 32 4 bytes 3)
  | .x64, a, bytes => x64Round a (wordAt 64 8 bytes 0) (wordAt 64 8 bytes 1)

/-- The accumulators after TAIL, of which the unread bytes are the tail (R142, R162, R182). -/
def absorbTail : (e : Engine) → Acc e → List Byte → Acc e
  | .h32, h, bytes => h32Absorb h (wordAt 32 4 bytes 0)
  | .x86, a, bytes =>
    x86TailMix a bytes.length (wordAt 32 4 bytes 0) (wordAt 32 4 bytes 1) (wordAt 32 4 bytes 2) (wordAt 32 4 bytes 3)
  | .x64, a, bytes => x64TailMix a bytes.length (wordAt 64 8 bytes 0) (wordAt 64 8 bytes 1)

/-- The accumulators after FINAL of a run that nothing disturbed (R143, R163, R183). -/
def finish : (e : Engine) → Acc e → Word64 → Acc e
  | .h32, h, lenQ => h32Finish h (lenQ.setWidth 32)
  | .x86, a, lenQ => x86Finish a (lenQ.setWidth 32)
  | .x64, a, lenQ => x64Finish a lenQ

/-- The accumulators after the first `n` blocks of the unread bytes. -/
def absorbBlocks (e : Engine) : Nat → List Byte → Acc e → Acc e
  | 0, _, a => a
  | n + 1, bytes, a => absorbBlocks e n (bytes.drop (blockSize e)) (absorbBlock e a bytes)

/-- The digest of a run with these unread bytes and accumulators. -/
def digestOf (e : Engine) (bytes : List Byte) (a : Acc e) (lenQ : Word64) : Acc e :=
  finish e
    (absorbTail e (absorbBlocks e (bytes.length / blockSize e) bytes a)
      (bytes.drop (blockSize e * (bytes.length / blockSize e)))) lenQ

/-! ### The digest function is the spec's

The equations of the block loops are taken from the recursor: by `rfl` the kernel would compare the old accumulator with the
new one first, and compute on open words. -/

theorem hash32Blocks_succ (n : Nat) (bytes : List Byte) (h : Word32) :
    hash32Blocks (n + 1) bytes h =
      hash32Blocks n (bytes.drop 4) (h32Round h (wordAt 32 4 bytes 0)) := by
  delta hash32Blocks
  exact congrFun (congrFun (Nat.brecOn.eq (n + 1) hash32Blocks._f) bytes) h

theorem hash128x86Blocks_succ (n : Nat) (bytes : List Byte) (a : Acc4) :
    hash128x86Blocks (n + 1) bytes a =
      hash128x86Blocks n (bytes.drop 16) 
        (x86Round a (wordAt 32 4 bytes 0) (wordAt 32 4 bytes 1) (wordAt 32 4 bytes 2) (wordAt 32 4 bytes 3)) := by
  delta hash128x86Blocks
  exact congrFun (congrFun (Nat.brecOn.eq (n + 1) hash128x86Blocks._f) bytes) a

theorem hash128x64Blocks_succ (n : Nat) (bytes : List Byte) (a : Acc2) :
    hash128x64Blocks (n + 1) bytes a =
      hash128x64Blocks n (bytes.drop 16) (x64Round a (wordAt 64 8 bytes 0) (wordAt 64 8 bytes 1)) := by
  delta hash128x64Blocks
  exact congrFun (congrFun (Nat.brecOn.eq (n + 1) hash128x64Blocks._f) bytes) a

theorem absorbBlocks_h32 (n : Nat) (bytes : List Byte) (h : Word32) :
    absorbBlocks .h32 n bytes h = hash32Blocks n bytes h := by
  induction n generalizing bytes h with
  | zero => rfl
  | succ n ih => rw [absorbBlocks, ih, hash32Blocks_succ, absorbBlock, blockSize]

theorem absorbBlocks_x86 (n : Nat) (bytes : List Byte) (a : Acc4) :
    absorbBlocks .x86 n bytes a = hash128x86Blocks n bytes a := by
  induction n generalizing bytes a with
  | zero => rfl
  | succ n ih => rw [absorbBlocks, ih, hash128x86Blocks_succ, absorbBlock, blockSize]

theorem absorbBlocks_x64 (n : Nat) (bytes : List Byte) (a : Acc2) :
    absorbBlocks .x64 n bytes a = hash128x64Blocks n bytes a := by
  induction n generalizing bytes a with
  | zero => rfl
  | succ n ih => rw [absorbBlocks, ih, hash128x64Blocks_succ, absorbBlock, blockSize]

/-- The accumulators that a START leaves (R140, R160, R180). -/
def seeded : (e : Engine) → Word32 → Acc e
  | .h32, seed => seed
  | .x86, seed => (⟨seed, seed, seed, seed⟩ : Acc4)
  | .x64, seed => (⟨seed.setWidth 64, seed.setWidth 64⟩ : Acc2)

theorem digestOf_h32 (bytes : List Byte) (seed : Word32) :
    digestOf .h32 bytes (seeded .h32 seed) (BitVec.ofNat 64 bytes.length) = hash32 bytes seed := by
  have hlen : (BitVec.ofNat 64 bytes.length).setWidth 32 = BitVec.ofNat 32 bytes.length :=
    BitVec.setWidth_ofNat_of_le (by decide) _
  rw [digestOf, absorbBlocks_h32, finish, hlen]
  rfl

theorem digestOf_x86 (bytes : List Byte) (seed : Word32) :
    digestOf .x86 bytes (seeded .x86 seed) (BitVec.ofNat 64 bytes.length) = hash128x86 bytes seed := by
  have hlen : (BitVec.ofNat 64 bytes.length).setWidth 32 = BitVec.ofNat 32 bytes.length :=
    BitVec.setWidth_ofNat_of_le (by decide) _
  rw [digestOf, absorbBlocks_x86, finish, hlen]
  rfl

theorem digestOf_x64 (bytes : List Byte) (seed : Word32) :
    digestOf .x64 bytes (seeded .x64 seed) (BitVec.ofNat 64 bytes.length) = hash128x64 bytes seed := by
  rw [digestOf, absorbBlocks_x64]
  rfl

/-! ### One operation of a run does not change its digest -/

/-- BLOCK: the first block is absorbed before the others. -/
theorem digestOf_block {e : Engine} {bytes : List Byte} (h : blockSize e ≤ bytes.length) (a : Acc e) (lenQ : Word64) :
    digestOf e (bytes.drop (blockSize e)) (absorbBlock e a bytes) lenQ = digestOf e bytes a lenQ := by
  have hdiv : bytes.length / blockSize e = (bytes.length - blockSize e) / blockSize e + 1 :=
    Nat.div_eq_sub_div (blockSize_pos e) h
  rw [digestOf, digestOf, List.length_drop, hdiv, absorbBlocks, List.drop_drop, Nat.mul_succ, Nat.add_comm (blockSize e)]

/-- With no full block left the digest is that of the tail. -/
theorem digestOf_short {e : Engine} {bytes : List Byte} (h : bytes.length < blockSize e) (a : Acc e) (lenQ : Word64) :
    digestOf e bytes a lenQ = finish e (absorbTail e a bytes) lenQ := by
  rw [digestOf, Nat.div_eq_of_lt h]
  rfl

theorem h32Absorb_zero (h : Word32) : h32Absorb h 0 = h := by
  rw [h32Absorb, kmix32_zero_left]
  exact BitVec.xor_zero

theorem wordAt_nil (w n i : Nat) : wordAt w n [] i = 0 := by
  rw [wordAt, List.drop_nil, List.take_nil, leWord_nil]

/-- An empty tail leaves the accumulators. -/
theorem absorbTail_nil (e : Engine) (a : Acc e) : absorbTail e a [] = a := by
  cases e with
  | h32 =>
    rw [absorbTail, wordAt_nil]
    exact h32Absorb_zero a
  | x86 => rfl
  | x64 => rfl

/-- With nothing left to read, FINAL is all that is left to do. -/
theorem digestOf_nil (e : Engine) (a : Acc e) (lenQ : Word64) : digestOf e [] a lenQ = finish e a lenQ := by
  rw [digestOf_short (bytes := []) (blockSize_pos e), absorbTail_nil]

/-! ### The unread bytes of a run, and its words -/

/-- The message bytes that a run has still to read. -/
def State.unread (s : State) (e : Engine) : List Byte :=
  msgBytes s e (s.ctl e).off.toNat (s.ctl e).rest

theorem unread_length (s : State) (e : Engine) : (s.unread e).length = (s.ctl e).rest := msgBytes_length _ _ _ _

theorem drop_msgBytes (s : State) (e : Engine) (off n k : Nat) :
    (msgBytes s e off n).drop k = msgBytes s e (off + k) (n - k) := by
  induction k generalizing off n with
  | zero => rfl
  | succ k ih =>
    cases n with
    | zero => simp
    | succ n => rw [msgBytes_succ, List.drop_succ_cons, ih, Nat.add_assoc, Nat.add_comm 1, Nat.add_sub_add_right]

theorem take_msgBytes (s : State) (e : Engine) (off n k : Nat) :
    (msgBytes s e off n).take k = msgBytes s e off (min k n) := by
  induction k generalizing off n with
  | zero => simp
  | succ k ih =>
    cases n with
    | zero => simp
    | succ n => rw [msgBytes_succ, List.take_succ_cons, ih, ← msgBytes_succ, Nat.succ_min_succ]

/-- A word of the tail is that word of the unread bytes (R64). -/
theorem tailWord_eq_wordAt (w n : Nat) (s : State) (e : Engine) (i : Nat) :
    tailWord w n s e i = wordAt w n (s.unread e) i := by
  rw [tailWord, memReadWord, wordAt, State.unread, drop_msgBytes, take_msgBytes, laneCount]

/-- A word of a block is that word of the unread bytes, where they hold it (R66). -/
theorem blockWord_eq_wordAt {w n : Nat} {s : State} {e : Engine} {i : Nat} (h : n * i + n ≤ (s.ctl e).rest) :
    blockWord w n s e i = wordAt w n (s.unread e) i := by
  rw [← tailWord_eq_wordAt, blockWord, tailWord, laneCount, Nat.min_eq_left (by omega)]

/-! ### Everything a turn can do to an undisturbed run -/

/-- Everything a turn of `e` can do to its control part `c` and its accumulators `a`, with these bytes unread. -/
inductive RunTurn (lenW : Nat) (e : Engine) (c : Ctl) (a : Acc e) (bytes : List Byte) : Ctl → Acc e → Prop
  | idle (hb : busyBit c.phase = false) : RunTurn lenW e c a bytes c a
  | block (a' : Acc e) (hp : c.phase = .block) (ha : a' = absorbBlock e a bytes) :
      RunTurn lenW e c a bytes (c.afterBlock e lenW) a'
  | tail (a' : Acc e) (hp : c.phase = .tail) (ha : a' = absorbTail e a bytes) : RunTurn lenW e c a bytes c.afterTail a'
  | final (a' : Acc e) (hp : c.phase = .final) (ha : a' = finish e a c.lenQ) : RunTurn lenW e c a bytes c.afterFinal a'

theorem h32_block_acc {s : State} (h : 4 ≤ s.h32.ctl.rest) :
    h32Round s.h32.h1 (blockWord 32 4 s .h32 0) = absorbBlock .h32 (s.acc .h32) (s.unread .h32) := by
  rw [blockWord_eq_wordAt (e := .h32) h]
  rfl

theorem x86_block_acc {s : State} (h : 16 ≤ (s.ctl .x86).rest) :
    x86Round s.x86.acc (blockWord 32 4 s .x86 0) (blockWord 32 4 s .x86 1) (blockWord 32 4 s .x86 2)
      (blockWord 32 4 s .x86 3) = absorbBlock .x86 (s.acc .x86) (s.unread .x86) := by
  rw [blockWord_eq_wordAt (i := 0) (by omega), blockWord_eq_wordAt (i := 1) (by omega),
    blockWord_eq_wordAt (i := 2) (by omega), blockWord_eq_wordAt (i := 3) (by omega)]
  rfl

theorem x64_block_acc {s : State} (h : 16 ≤ (s.ctl .x64).rest) :
    x64Round s.x64.acc (blockWord 64 8 s .x64 0) (blockWord 64 8 s .x64 1) =
      absorbBlock .x64 (s.acc .x64) (s.unread .x64) := by
  rw [blockWord_eq_wordAt (i := 0) (by omega), blockWord_eq_wordAt (i := 1) (by omega)]
  rfl

/-- H32's TAIL may absorb its word always: the word of an empty tail is 0, and absorbing 0 changes nothing. -/
theorem h32_tail_acc (s : State) :
    (if laneCount 4 s.h32.ctl.rest 0 = 0 then s.h32.h1 else h32Absorb s.h32.h1 (tailWord 32 4 s .h32 0)) =
      absorbTail .h32 (s.acc .h32) (s.unread .h32) := by
  have habsorb : absorbTail .h32 (s.acc .h32) (s.unread .h32) = h32Absorb s.h32.h1 (tailWord 32 4 s .h32 0) := by
    rw [tailWord_eq_wordAt]
    rfl
  rw [habsorb]
  split
  case isTrue hempty =>
    have hword : tailWord 32 4 s .h32 0 = 0 := congrArg (fun n => memReadWord 32 s .h32 _ n) hempty
    rw [hword, h32Absorb_zero]
  case isFalse => rfl

theorem x86_tail_acc (s : State) :
    x86TailMix s.x86.acc s.x86.ctl.rest (tailWord 32 4 s .x86 0) (tailWord 32 4 s .x86 1) (tailWord 32 4 s .x86 2)
      (tailWord 32 4 s .x86 3) = absorbTail .x86 (s.acc .x86) (s.unread .x86) := by
  simp only [absorbTail, tailWord_eq_wordAt, unread_length]
  rfl

theorem x64_tail_acc (s : State) :
    x64TailMix s.x64.acc s.x64.ctl.rest (tailWord 64 8 s .x64 0) (tailWord 64 8 s .x64 1) =
      absorbTail .x64 (s.acc .x64) (s.unread .x64) := by
  simp only [absorbTail, tailWord_eq_wordAt, unread_length]
  rfl

/-- The turn of an undisturbed run, as an operation on its accumulators and unread bytes. -/
theorem runTurn_of_turn {s t : State} {e : Engine} (h : TurnEffect s e t) (hok : SeqOk s.lenW e (s.ctl e))
    (hd : (s.ctl e).disturbed = false) :
    RunTurn s.lenW e (s.ctl e) (s.acc e) (s.unread e) (t.ctl e) (t.acc e) := by
  cases h with
  | idle e hb => exact .idle hb
  | h32Block hp => exact .block _ hp (h32_block_acc (rest_of_block hok hp))
  | h32Tail a hp ha => exact .tail _ hp (ha.trans (h32_tail_acc s))
  | h32Final hp => exact .final _ hp rfl
  | x86Block a hp ha => exact .block _ hp (ha.trans (x86_block_acc (rest_of_block hok hp)))
  | x86Tail a hp ha => exact .tail _ hp (ha.trans (x86_tail_acc s))
  | x86Final hp => exact .final _ hp rfl
  | x64Block a hp ha => exact .block _ hp (ha.trans (x64_block_acc (rest_of_block hok hp)))
  | x64Tail a hp ha => exact .tail _ hp (ha.trans (x64_tail_acc s))
  | x64Final hp => exact .final _ hp rfl
  | h32Disturbed a hp hd' | x86Disturbed a hp hd' | x64Disturbed a hp hd' =>
    exact absurd (hd.symm.trans hd') Bool.false_ne_true

/-! ### The digest that a run will have -/

/-- The digest of the run of `e`: its accumulators in DONE, and before that what is still to be absorbed into them. -/
def State.toCome (s : State) (e : Engine) : Acc e :=
  if (s.ctl e).phase = .done then s.acc e else digestOf e (s.unread e) (s.acc e) (s.ctl e).lenQ

theorem rest_of_tail {lenW : Nat} {e : Engine} {c : Ctl} (h : SeqOk lenW e c) (hp : c.phase = .tail) :
    c.rest < blockSize e := by
  rw [Ctl.rest, h.tail hp, ← Nat.mod_eq_sub]
  exact Nat.mod_lt _ (blockSize_pos e)

theorem unread_of_final {s : State} {e : Engine} (h : SeqOk s.lenW e (s.ctl e)) (hp : (s.ctl e).phase = .final) :
    s.unread e = [] := by
  rw [State.unread, Ctl.rest, h.final hp, Nat.sub_self, msgBytes_zero]

theorem blockOrTail_ne_done (e : Engine) (n : Nat) : blockOrTail e n ≠ .done := by
  rw [blockOrTail]
  split <;> decide

theorem unread_congr {s t : State} (e : Engine) (hw : t.lenW = s.lenW) (hm : t.msg e = s.msg e) :
    t.unread e = msgBytes s e (t.ctl e).off.toNat (t.ctl e).rest :=
  msgBytes_congr e _ _ hw fun k _ _ => by rw [hm]

/-- A turn does not change the digest that its run will have. -/
theorem toCome_turn {s t : State} {e : Engine} (h : TurnEffect s e t) (hw : s.lenW ≤ 64)
    (hok : SeqOk s.lenW e (s.ctl e)) (hd : (s.ctl e).disturbed = false) (hran : (s.ctl e).phase ≠ .idle) :
    t.toCome e = s.toCome e ∧ (t.ctl e).disturbed = false := by
  have hturn := runTurn_of_turn h hok hd
  rw [State.toCome, State.toCome, unread_congr e (lenW_turn h) (msg_turn h e)]
  generalize t.ctl e = c' at hturn ⊢
  generalize t.acc e = a' at hturn ⊢
  cases hturn with
  | idle hb =>
    have hdone := ((busyBit_eq_false_iff _).mp hb).resolve_left hran
    exact ⟨by rw [if_pos hdone, if_pos hdone], hd⟩
  | block a' hp ha =>
    refine ⟨?_, hd⟩
    have hfull := rest_of_block hok hp
    obtain ⟨-, hlenQ, -⟩ := hok.1
    obtain ⟨hoff, hrest⟩ := afterBlock_reads e hw hlenQ (hok.block hp).2
    have hbytes : msgBytes s e ((s.ctl e).afterBlock e s.lenW).off.toNat ((s.ctl e).afterBlock e s.lenW).rest =
        (s.unread e).drop (blockSize e) := by
      rw [hoff, hrest, State.unread, drop_msgBytes]
    rw [if_neg (by exact blockOrTail_ne_done _ _), if_neg (by rw [hp]; decide), hbytes, ha]
    exact digestOf_block (by rwa [unread_length]) _ _
  | tail a' hp ha =>
    refine ⟨?_, hd⟩
    have hshort : (s.unread e).length < blockSize e := by rw [unread_length]; exact rest_of_tail hok hp
    have hbytes : msgBytes s e (s.ctl e).afterTail.off.toNat (s.ctl e).afterTail.rest = [] := by
      rw [Ctl.rest, Ctl.afterTail, Nat.sub_self, msgBytes_zero]
    rw [if_neg (by exact Phase.noConfusion), if_neg (by rw [hp]; decide), hbytes, digestOf_nil, digestOf_short hshort, ha]
    rfl
  | final a' hp ha =>
    refine ⟨?_, hd⟩
    rw [if_pos (by rfl), if_neg (by rw [hp]; decide), unread_of_final hok hp, digestOf_nil, ha]

/-- The digest that a run will have depends on its sequencer, its accumulators and its message. -/
theorem toCome_congr {s t : State} {e : Engine} (hw : t.lenW = s.lenW) (hm : t.msg e = s.msg e)
    (hp : (t.ctl e).phase = (s.ctl e).phase) (hq : (t.ctl e).lenQ = (s.ctl e).lenQ) (ho : (t.ctl e).off = (s.ctl e).off)
    (ha : t.acc e = s.acc e) : t.toCome e = s.toCome e := by
  rw [State.toCome, State.toCome, unread_congr e hw hm, State.unread, Ctl.rest, Ctl.rest, hp, hq, ho, ha]

/-! ### A run along a schedule -/

/-- An event that leaves a run alone does not change the digest that it will have. -/
theorem toCome_input {s t : State} {i : Input} {e : Engine} (h : InputEffect s i t) (hok : s.SequencersOk)
    (hl : i.leavesRun e = true) (hd : (s.ctl e).disturbed = false) (hran : (s.ctl e).phase ≠ .idle) :
    t.toCome e = s.toCome e ∧ (t.ctl e).disturbed = false := by
  simp only [Input.leavesRun, Bool.and_eq_true, Bool.not_eq_true'] at hl
  obtain ⟨⟨hr, hm⟩, hs⟩ := hl
  by_cases ht : i = .engineTurn e
  · subst ht
    obtain ⟨⟨-, hw⟩, hseq⟩ := (sequencersOk_iff s).mp hok
    cases h with
    | engineTurn e t hturn => exact toCome_turn hturn hw (hseq e) hd hran
  · obtain ⟨hp, hq, ho, hmark⟩ := sequencer_other (ctlEffect_input h e) hs hr ht
    exact ⟨toCome_congr (lenW_input h) (msg_input h hm) hp hq ho (acc_input h hs hr ht), (hmark hm).trans hd⟩

theorem toCome_withInputs (s : State) (rest : List Input) (e : Engine) :
    ({ s with inputs := rest } : State).toCome e = s.toCome e := by
  refine toCome_congr rfl ?_ ?_ ?_ ?_ ?_ <;> cases e <;> rfl

theorem message_withInputs (s : State) (rest : List Input) (e : Engine) (len : Nat) :
    ({ s with inputs := rest } : State).message e len = s.message e len := by cases e <;> rfl

/-- A run that nothing has disturbed, whose turns are all on the schedule, and that will have the digest `d`. -/
structure RunYields (e : Engine) (d : Acc e) (s : State) : Prop where
  scheduled : RunShort e 0 s
  undisturbed : (s.ctl e).disturbed = false
  toCome : s.toCome e = d

theorem runYields_step {e : Engine} {d : Acc e} {s t : State} {i : Input} (hi : s.inputs.head? = some i)
    (hl : i.leavesRun e = true) (hstep : step s = .next t) (h : RunYields e d s) : RunYields e d t := by
  obtain ⟨hscheduled, hundisturbed, htoCome⟩ := h
  obtain ⟨rest, hcons⟩ := List.head?_eq_some_iff.mp hi
  have hevent := hl
  simp only [Input.leavesRun, Bool.and_eq_true, Bool.not_eq_true'] at hevent
  obtain ⟨⟨hr, -⟩, hs⟩ := hevent
  have hscheduled' := runShort_step hi hs hr hstep hscheduled
  rw [step_cons s i rest hcons] at hstep
  obtain ⟨hsame, hundisturbed'⟩ :=
    toCome_input (s := { s with inputs := rest }) (e := e) (input_effect hstep) hscheduled.ok hl
      (by rwa [ctl_withInputs]) (by rw [ctl_withInputs]; exact hscheduled.ran)
  exact ⟨hscheduled', hundisturbed', hsame.trans ((toCome_withInputs s rest e).trans htoCome)⟩

/-- Inside the space the bytes that a START has before it are the message. -/
theorem msgBytes_eq_message (s : State) (e : Engine) {len : Nat} (h : len ≤ 2 ^ s.lenW) :
    msgBytes s e 0 len = s.message e len := by
  refine List.ext_getElem (by rw [msgBytes_length, State.message, List.length_map, List.length_range]) fun j hj _ => ?_
  rw [msgBytes_length] at hj
  have hbyte := msgBytes_getD s e 0 len j
  rw [if_pos hj, Nat.zero_add, msgByte_of_lt s e j (by omega)] at hbyte
  simpa [State.message, List.getD_eq_getElem?_getD, msgBytes_length, hj] using hbyte

theorem started_acc (s : State) (e : Engine) : (s.started e).acc e = seeded e (s.ctl e).seed := by cases e <;> rfl

theorem started_lenW (s : State) (e : Engine) : (s.started e).lenW = s.lenW := by cases e <;> rfl

theorem started_msg (s : State) (e e' : Engine) : (s.started e).msg e' = s.msg e' := by cases e <;> cases e' <;> rfl

/-- What a START has to come is the digest of the whole message, from the seed. -/
theorem toCome_started {s : State} {e : Engine} (hok : SeqOk s.lenW e (s.ctl e)) :
    (s.started e).toCome e =
      digestOf e (s.message e (s.ctl e).len.toNat) (seeded e (s.ctl e).seed)
        (BitVec.ofNat 64 (s.message e (s.ctl e).len.toNat).length) := by
  obtain ⟨⟨hlen, -⟩, -⟩ := hok
  have hbytes : (s.started e).unread e = s.message e (s.ctl e).len.toNat := by
    rw [unread_congr e (started_lenW s e) (started_msg s e e), started_ctl]
    exact msgBytes_eq_message s e hlen.le
  have hlength : BitVec.ofNat 64 (s.message e (s.ctl e).len.toNat).length = (s.ctl e).len := by
    rw [State.message, List.length_map, List.length_range, BitVec.ofNat_toNat, BitVec.setWidth_eq]
  rw [State.toCome, hbytes, hlength, started_acc, started_ctl, if_neg (by exact blockOrTail_ne_done _ _)]
  rfl

/-- After an accepted START and a schedule that leaves the run alone and holds its turns, the engine is in DONE with the
digest of its message. -/
theorem run_yields_digest {s : State} {e : Engine} {T : BitVec 40} {events : List Input} (hok : s.SequencersOk)
    (hadm : s.admitted = true) (hb : busyBit (s.ctl e).phase = false) (hi : s.inputs = .hostWrite T :: events)
    (hs : (Input.hostWrite T).starts e = true) (hevents : ∀ i ∈ events, i.leavesRun e = true)
    (henough : stepsOfRun e (s.ctl e).len.toNat ≤ events.count (.engineTurn e)) :
    ∃ t : State, Host.Core.run core (events.length + 1) s = .next t ∧ (t.ctl e).phase = .done ∧
      t.acc e =
        digestOf e (s.message e (s.ctl e).len.toNat) (seeded e (s.ctl e).seed)
          (BitVec.ofNat 64 (s.message e (s.ctl e).len.toNat).length) := by
  have hstep := step_start hi hs hb
  have hscheduled := runShort_start hok hi hs hb hstep
  rw [Nat.sub_eq_zero_of_le henough] at hscheduled
  have hseq : SeqOk s.lenW e (s.ctl e) := ((sequencersOk_iff s).mp hok).2 e
  have htoCome := toCome_started (s := { s with inputs := events }) (e := e) (by rwa [ctl_withInputs])
  rw [ctl_withInputs s events e, message_withInputs] at htoCome
  obtain ⟨t, hrun, hnil, ⟨-, hran, hleft⟩, -, hdigest⟩ :=
    run_inputs (Inv := RunYields e _) (fun s t i hhead hl hstep h => runYields_step hhead hl hstep h) events
      (started_inputs _ _) (admitted_step hadm hstep) hevents ⟨hscheduled, by rw [started_ctl]; rfl, htoCome⟩
  rw [hnil, List.count_nil, Nat.sub_zero, turnsLeft_eq_zero_iff, busyBit_eq_false_iff] at hleft
  have hdone := hleft.resolve_left hran
  rw [State.toCome, if_pos hdone] at hdigest
  exact ⟨t, (run_succ _ hstep).trans hrun, hdone, hdigest⟩

/-- Settles O54: the run ends in DONE with the digest that its START had to come, which is `hash32` of message and seed. -/
theorem h32RunComputesHash32 : Obligations.H32RunComputesHash32 := by
  intro s T events hok hadm hb hi hs hevents henough
  obtain ⟨t, hrun, hdone, hacc⟩ := run_yields_digest (e := .h32) hok hadm hb hi hs hevents henough
  have hdigest : t.h32.h1 = hash32 (s.message .h32 s.h32.ctl.len.toNat) s.h32.ctl.seed := hacc.trans (digestOf_h32 _ _)
  exact ⟨t, hrun, hdone, hdigest ▸ h32_digest_of_done hdone⟩

/-- Settles O55: the run ends in DONE with the digest that its START had to come, which is `hash128_x86` of message and
seed. -/
theorem x86RunComputesHash128X86 : Obligations.X86RunComputesHash128X86 := by
  intro s T events hok hadm hb hi hs hevents henough
  obtain ⟨t, hrun, hdone, hacc⟩ := run_yields_digest (e := .x86) hok hadm hb hi hs hevents henough
  have hdigest : hash128x86 (s.message .x86 s.x86.ctl.len.toNat) s.x86.ctl.seed = t.x86.acc :=
    (hacc.trans (digestOf_x86 _ _)).symm
  refine ⟨t, hrun, hdone, ?_⟩
  rw [hdigest]
  exact x86_digest_of_done hdone

/-- Settles O56: the run ends in DONE with the digest that its START had to come, which is `hash128_x64` of message and
seed; its words are read as halves. -/
theorem x64RunComputesHash128X64 : Obligations.X64RunComputesHash128X64 := by
  intro s T events hok hadm hb hi hs hevents henough
  obtain ⟨t, hrun, hdone, hacc⟩ := run_yields_digest (e := .x64) hok hadm hb hi hs hevents henough
  have hdigest : hash128x64 (s.message .x64 s.x64.ctl.len.toNat) s.x64.ctl.seed = t.x64.acc :=
    (hacc.trans (digestOf_x64 _ _)).symm
  refine ⟨t, hrun, hdone, ?_⟩
  rw [hdigest]
  exact x64_digest_of_done hdone

end Sys2Proof.Machine
end

section
/-! PROOFS. An engine's turn reads and writes its own part of the state (spec/00_scope.md R2, spec/20_memory.md R66, R72). -/

namespace Sys2Proof.Machine

/-! ### The part of the state that is one engine's -/

/-- `s` with the engine `e` of `t`. -/
def State.graft (s t : State) : Engine → State
  | .h32 => { s with h32 := t.h32 }
  | .x86 => { s with x86 := t.x86 }
  | .x64 => { s with x64 := t.x64 }

theorem graft_self (s : State) (e : Engine) : s.graft s e = s := by cases e <;> rfl

theorem graft_comm (s t t' : State) {e e' : Engine} (h : e ≠ e') :
    (s.graft t e).graft t' e' = (s.graft t' e').graft t e := by
  cases e <;> cases e' <;> first | exact absurd rfl h | rfl

theorem setMsg_graft (s t : State) (m : Memory) (e : Engine) : (s.setMsg e m).graft t e = (s.graft t e).setMsg e m := by
  cases e <;> rfl

theorem graft_lenW (s t : State) (e : Engine) : (s.graft t e).lenW = s.lenW := by cases e <;> rfl

theorem graft_ctl_other (s t : State) {e e' : Engine} (h : e' ≠ e) : (s.graft t e).ctl e' = s.ctl e' := by
  cases e <;> cases e' <;> first | exact absurd rfl h | rfl

theorem graft_msg (s t : State) (e e' : Engine) : (s.graft t e).msg e' = s.msg e' := by cases e <;> cases e' <;> rfl

/-- A turn changes its engine and nothing else. -/
theorem turn_eq_graft {s t : State} {e : Engine} (h : TurnEffect s e t) : t = s.graft t e := by
  cases h with
  | idle => cases e <;> rfl
  | _ => rfl

/-- Settles O48: a turn changes its engine only, and of its control part only the offset, the phase and the count of
draws. -/
theorem engineTurnTouchesItsEngineOnly : Obligations.EngineTurnTouchesItsEngineOnly := by
  intro s t e h
  have heffect := turn_effect h
  obtain ⟨hseed, hlen, hlenQ⟩ := (ctl_turn heffect).1.registers
  have hframe : t.answers = s.answers ∧ t.inputs = s.inputs ∧ t.turns = s.turns ∧ (e ≠ .h32 → t.h32 = s.h32) ∧
      (e ≠ .x86 → t.x86 = s.x86) ∧ (e ≠ .x64 → t.x64 = s.x64) := by
    rw [turn_eq_graft heffect]
    cases e <;> simp [State.graft]
  obtain ⟨hanswers, hinputs, hturns, hh32, hx86, hx64⟩ := hframe
  exact ⟨hh32, hx86, hx64, hseed, hlen, hlenQ, lenW_turn heffect, msg_turn heffect, hanswers, hinputs, hturns⟩

/-! ### The part of the state that a turn reads -/

/-- What a turn of `e` may read is the same in both states: the engine, `LEN_W`, and the words of its phase. -/
structure Agrees (e : Engine) (s s' : State) : Prop where
  engine : s'.graft s e = s'
  lenW : s'.lenW = s.lenW
  block : (s.ctl e).phase = .block → ∀ w n i, n * i + n ≤ blockSize e → blockWord w n s' e i = blockWord w n s e i
  tail : (s.ctl e).phase = .tail → ∀ w n i, tailWord w n s' e i = tailWord w n s e i

theorem h32_turn_congr {s s' t t' : State} (hag : Agrees .h32 s s') (hb : busyBit s.h32.ctl.phase = true)
    (h : runEngine .h32 s = .next t) (h' : runEngine .h32 s' = .next t') : t'.h32 = t.h32 := by
  obtain ⟨hengine, hlenW, hblock, htail⟩ := hag
  have hx : s'.h32 = s.h32 := by rw [← hengine]; rfl
  rcases (busyBit_eq_true_iff _).mp hb with hp | hp | hp
  · rw [runEngine_h32_block hp] at h
    rw [runEngine_h32_block (by rw [hx, hp])] at h'
    cases h; cases h'
    simp only [hx, hlenW, hblock hp 32 4 0 (by decide)]
  · rw [runEngine_h32_tail hp] at h
    rw [runEngine_h32_tail (by rw [hx, hp])] at h'
    cases h; cases h'
    simp only [hx, htail hp]
  · rw [runEngine_h32_final hp, execH32Final] at h
    rw [runEngine_h32_final (by rw [hx, hp]), execH32Final, hx] at h'
    split at h
    case isTrue hd => rw [if_pos hd] at h'; cases h; cases h'; rfl
    case isFalse hd => rw [if_neg hd] at h'; cases h; cases h'; rfl

theorem x86_turn_congr {s s' t t' : State} (hag : Agrees .x86 s s') (hb : busyBit s.x86.ctl.phase = true)
    (h : runEngine .x86 s = .next t) (h' : runEngine .x86 s' = .next t') : t'.x86 = t.x86 := by
  obtain ⟨hengine, hlenW, hblock, htail⟩ := hag
  have hx : s'.x86 = s.x86 := by rw [← hengine]; rfl
  rcases (busyBit_eq_true_iff _).mp hb with hp | hp | hp
  · rw [runEngine_x86_block hp] at h
    rw [runEngine_x86_block (by rw [hx, hp])] at h'
    cases h; cases h'
    simp only [hx, hlenW, hblock hp 32 4 0 (by decide), hblock hp 32 4 1 (by decide), 
      hblock hp 32 4 2 (by decide), hblock hp 32 4 3 (by decide)]
  · rw [runEngine_x86_tail hp] at h
    rw [runEngine_x86_tail (by rw [hx, hp])] at h'
    cases h; cases h'
    simp only [hx, htail hp]
  · rw [runEngine_x86_final hp, execX86Final] at h
    rw [runEngine_x86_final (by rw [hx, hp]), execX86Final, hx] at h'
    split at h
    case isTrue hd => rw [if_pos hd] at h'; cases h; cases h'; rfl
    case isFalse hd => rw [if_neg hd] at h'; cases h; cases h'; rfl

theorem x64_turn_congr {s s' t t' : State} (hag : Agrees .x64 s s') (hb : busyBit s.x64.ctl.phase = true)
    (h : runEngine .x64 s = .next t) (h' : runEngine .x64 s' = .next t') : t'.x64 = t.x64 := by
  obtain ⟨hengine, hlenW, hblock, htail⟩ := hag
  have hx : s'.x64 = s.x64 := by rw [← hengine]; rfl
  rcases (busyBit_eq_true_iff _).mp hb with hp | hp | hp
  · rw [runEngine_x64_block hp] at h
    rw [runEngine_x64_block (by rw [hx, hp])] at h'
    cases h; cases h'
    simp only [hx, hlenW, hblock hp 64 8 0 (by decide), hblock hp 64 8 1 (by decide)]
  · rw [runEngine_x64_tail hp] at h
    rw [runEngine_x64_tail (by rw [hx, hp])] at h'
    cases h; cases h'
    simp only [hx, htail hp]
  · rw [runEngine_x64_final hp, execX64Final] at h
    rw [runEngine_x64_final (by rw [hx, hp]), execX64Final, hx] at h'
    split at h
    case isTrue hd => rw [if_pos hd] at h'; cases h; cases h'; rfl
    case isFalse hd => rw [if_neg hd] at h'; cases h; cases h'; rfl

theorem runEngine_of_not_busy {e : Engine} {s : State} (h : busyBit (s.ctl e).phase = false) : runEngine e s = .next s :=
  ((busyBit_eq_false_iff _).mp h).elim runEngine_of_idle runEngine_of_done

/-- A turn is determined by what it reads: in a state that agrees there, it brings its engine to the same values. -/
theorem runEngine_congr {e : Engine} {s s' t : State} (hag : Agrees e s s') (h : runEngine e s = .next t) :
    runEngine e s' = .next (s'.graft t e) := by
  cases hb : busyBit (s.ctl e).phase with
  | false =>
    have hctl : s'.ctl e = s.ctl e := by rw [← hag.engine]; cases e <;> rfl
    rw [runEngine_of_not_busy hb] at h
    cases h
    rw [runEngine_of_not_busy (by rwa [hctl]), hag.engine]
  | true =>
    obtain ⟨t', h'⟩ := runEngine_next e s'
    rw [h', turn_eq_graft (turn_effect h')]
    cases e with
    | h32 => rw [State.graft, h32_turn_congr hag hb h h', State.graft]
    | x86 => rw [State.graft, x86_turn_congr hag hb h h', State.graft]
    | x64 => rw [State.graft, x64_turn_congr hag hb h h', State.graft]

/-! ### Message bytes that a turn does not read (R66, R254) -/

theorem memReadWord_setMsg {s : State} {e : Engine} {m : Memory} {off n : Nat} (w : Nat)
    (hq : (s.ctl e).lenQ.toNat < 2 ^ s.lenW)
    (hm : ∀ k, (s.ctl e).off.toNat ≤ k → k < (s.ctl e).lenQ.toNat → memRead m k = memRead (s.msg e) k)
    (hlow : (s.ctl e).off.toNat ≤ off) (hhigh : ∀ k, off ≤ k → k < off + n → k < (s.ctl e).lenQ.toNat) :
    memReadWord w (s.setMsg e m) e off n = memReadWord w s e off n := by
  refine congrArg (leWord w) (msgBytes_congr e off n (setMsg_lenW s e m) fun k hk hk' => ?_)
  have hin := hhigh k hk hk'
  rw [setMsg_msg_same, setMsg_lenW, Nat.mod_eq_of_lt (hin.trans hq)]
  exact hm k (hlow.trans hk) hin

theorem agrees_setMsg {s : State} {e : Engine} {m : Memory} (hok : SeqOk s.lenW e (s.ctl e))
    (hm : ∀ k, (s.ctl e).off.toNat ≤ k → k < (s.ctl e).lenQ.toNat → memRead m k = memRead (s.msg e) k) :
    Agrees e s (s.setMsg e m) := by
  obtain ⟨-, hq, -⟩ := hok.1
  refine ⟨by rw [setMsg_graft, graft_self], setMsg_lenW s e m, fun hp w n i hn => ?_, fun hp w n i => ?_⟩
  · have hfull := (hok.block hp).2
    rw [blockWord, blockWord, setMsg_ctl]
    exact memReadWord_setMsg w hq hm (Nat.le_add_right _ _) fun k _ hk => by omega
  · rw [tailWord, tailWord, setMsg_ctl]
    refine memReadWord_setMsg w hq hm (Nat.le_add_right _ _) fun k hk hk' => ?_
    rw [laneCount, Ctl.rest] at hk'
    omega

/-- Settles O36: the words of a block with a full block left, and of a tail, hold only bytes from the offset up to the
latched length. -/
theorem unreadBytesDoNotMatter : Obligations.UnreadBytesDoNotMatter := by
  intro s t e m hok h hm
  rw [runEngine_congr (agrees_setMsg (((sequencersOk_iff s).mp hok).2 e) hm) h, setMsg_graft,
    ← turn_eq_graft (turn_effect h)]

/-! ### Turns of different engines (R72) -/

theorem memReadWord_graft (w : Nat) (s t : State) (e e' : Engine) (off n : Nat) :
    memReadWord w (s.graft t e) e' off n = memReadWord w s e' off n :=
  congrArg (leWord w) (msgBytes_congr e' off n (graft_lenW s t e) fun k _ _ => by rw [graft_msg])

theorem agrees_graft (s t : State) {e e' : Engine} (h : e ≠ e') : Agrees e' s (s.graft t e) := by
  have hctl : (s.graft t e).ctl e' = s.ctl e' := graft_ctl_other s t h.symm
  refine ⟨by rw [graft_comm s t s h, graft_self], graft_lenW s t e, fun _ w n i _ => ?_, fun _ w n i => ?_⟩
  · rw [blockWord, blockWord, hctl, memReadWord_graft]
  · rw [tailWord, tailWord, hctl, memReadWord_graft]

/-- Settles O49: each turn leaves all that the other reads, so each brings its engine to the same values in either order. -/
theorem engineTurnsCommute : Obligations.EngineTurnsCommute := by
  intro s t u t' u' e e' hne h hu h' hu'
  have ht : t = s.graft t e := turn_eq_graft (turn_effect h)
  have ht' : t' = s.graft t' e' := turn_eq_graft (turn_effect h')
  rw [ht, runEngine_congr (agrees_graft s t hne) h'] at hu
  rw [ht', runEngine_congr (agrees_graft s t' hne.symm) h] at hu'
  cases hu
  cases hu'
  exact graft_comm s t t' hne

end Sys2Proof.Machine
end

section
/-! PROOFS. Port accesses and their frame, the mark of a disturbed run, reset, and the exhausted schedule
(spec/10_state.md R37, R40, R42; spec/20_memory.md R70; spec/70_reset_and_hazards.md R250, R263). -/

namespace Sys2Proof.Machine

/-! ### Port accesses (R2, R37) -/

/-- The bank of an address names its engine. -/
theorem bank_field {T : BitVec 40} {e : Engine} {o : BitVec 8} (h : T.extractLsb' 32 8 = bank e + o)
    (ho : (bank e + o).extractLsb' 6 2 = engCode e) : T.extractLsb' 38 2 = engCode e := by
  rw [← ho, ← h, address_extractLsb' T 6 2 (by decide)]

/-- A host write changes at most the engine of its bank. -/
theorem write_eq_graft {s t : State} {T : BitVec 40} (h : WriteEffect s (T.extractLsb' 32 8) (T.extractLsb' 0 32) t) :
    t = s ∨ ∃ e, T.extractLsb' 38 2 = engCode e ∧ t = s.graft t e := by
  cases h with
  | ignored => exact .inl rfl
  | startH32 ha => exact .inr ⟨.h32, bank_field (o := 0) ha rfl, rfl⟩
  | startX86 ha => exact .inr ⟨.x86, bank_field (o := 0) ha rfl, rfl⟩
  | startX64 ha => exact .inr ⟨.x64, bank_field (o := 0) ha rfl, rfl⟩
  | seed e ha => exact .inr ⟨e, bank_field ha (by cases e <;> rfl), by cases e <;> rfl⟩
  | len e ha => exact .inr ⟨e, bank_field ha (by cases e <;> rfl), by cases e <;> rfl⟩
  | lenHi e ha => exact .inr ⟨e, bank_field ha (by cases e <;> rfl), by cases e <;> rfl⟩

/-- A host read adds one answer, and at most counts a draw. -/
theorem read_frame {s t : State} (h : ReadEffect s t) (e : Engine) :
    { t.ctl e with draws := 0 } = { s.ctl e with draws := 0 } ∧ t.msg e = s.msg e := by
  cases h with
  | answered v => exact ⟨by rw [answer_ctl], answer_msg s v e⟩
  | drew e' hp =>
    rw [answer_ctl, answer_msg, setCtl_msg]
    by_cases he : e = e'
    · rw [he, setCtl_ctl_same]; exact ⟨rfl, rfl⟩
    · rw [setCtl_ctl_other s _ he]; exact ⟨rfl, rfl⟩

theorem read_answers {s t : State} (h : ReadEffect s t) : ∃ v, t.answers = v :: s.answers := by
  cases h with
  | answered v => exact ⟨v, rfl⟩
  | drew e hp => exact ⟨_, by rw [answer_answers, setCtl_answers]⟩

/-- Settles O50: a write changes one engine, the one its bank names; a read changes none but for its count of draws. -/
theorem portAccessTouchesOneEngine : Obligations.PortAccessTouchesOneEngine := by
  intro s t
  refine ⟨fun T h => ?write, fun A h => ?read⟩
  case write =>
    rcases write_eq_graft (write_effect h) with rfl | ⟨e, hbank, ht⟩
    · exact ⟨fun _ => rfl, fun _ => rfl, fun _ => rfl, fun _ => rfl, rfl⟩
    · rw [hbank, ht]
      cases e with
      | h32 => exact ⟨fun h => absurd rfl h, fun _ => rfl, fun _ => rfl, graft_msg s t .h32, rfl⟩
      | x86 => exact ⟨fun _ => rfl, fun h => absurd rfl h, fun _ => rfl, graft_msg s t .x86, rfl⟩
      | x64 => exact ⟨fun _ => rfl, fun _ => rfl, fun h => absurd rfl h, graft_msg s t .x64, rfl⟩
  case read =>
    have heffect : ReadEffect s t := read_effect h
    exact
      ⟨fun e => (read_frame heffect e).symm, acc_read heffect .h32, acc_read heffect .x86, acc_read heffect .x64,
        read_answers heffect⟩

/-! ### The mark of a disturbed run (R70, log 9) -/

theorem runInput_messageByte {s : State} {off : Word64} (e : Engine) (b : Byte) (h : off.toNat < 2 ^ s.lenW) :
    runInput (.messageByte e off b) s = .next (setMessageByte s e off b) := if_pos h

theorem disturbed_setMessageByte (s : State) (e : Engine) (off : Word64) (b : Byte) :
    ((setMessageByte s e off b).ctl e).disturbed = ((s.ctl e).disturbed || breaksStability s e off b) := by
  rw [setMessageByte, setMsg_ctl, setCtl_ctl_same]

theorem breaksStability_iff (s : State) (e : Engine) (off : Word64) (b : Byte) :
    breaksStability s e off b = true ↔
      busyBit (s.ctl e).phase = true ∧ off.toNat < (s.ctl e).lenQ.toNat ∧ memRead (s.msg e) off.toNat ≠ b := by
  simp only [breaksStability, Bool.and_eq_true, decide_eq_true_eq, and_assoc]

theorem exec_h32Final_of_disturbed {s : State} (h : s.h32.ctl.disturbed = true) :
    ∃ x : H32, exec .h32Final s = .next { s with h32 := x } ∧ x.ctl.phase = .done :=
  ⟨{ ctl := s.h32.ctl.afterFinal.drew 1, h1 := free32 .h32 s.h32.ctl.draws }, if_pos h, rfl⟩

theorem exec_x86Final_of_disturbed {s : State} (h : s.x86.ctl.disturbed = true) :
    ∃ x : X86, exec .x86Final s = .next { s with x86 := x } ∧ x.ctl.phase = .done :=
  ⟨{ ctl := s.x86.ctl.afterFinal.drew 4
     h1 := free32 .x86 s.x86.ctl.draws
     h2 := free32 .x86 (s.x86.ctl.draws + 1)
     h3 := free32 .x86 (s.x86.ctl.draws + 2)
     h4 := free32 .x86 (s.x86.ctl.draws + 3) }, if_pos h, rfl⟩

theorem exec_x64Final_of_disturbed {s : State} (h : s.x64.ctl.disturbed = true) :
    ∃ x : X64, exec .x64Final s = .next { s with x64 := x } ∧ x.ctl.phase = .done :=
  ⟨{ ctl := s.x64.ctl.afterFinal.drew 2
     h1 := Config.free .x64 s.x64.ctl.draws
     h2 := Config.free .x64 (s.x64.ctl.draws + 1) }, if_pos h, rfl⟩

/-- Settles O28: the platform's change ors in whether it breaks the stability of the run; START clears the mark, and FINAL
of a marked run takes free values on its way to DONE. -/
theorem disturbedRun : Obligations.DisturbedRun := by
  intro s e off b hoff
  have hchange := runInput_messageByte e b hoff
  refine ⟨fun hb hlt hne => ⟨_, hchange, ?marks⟩, fun hno => ⟨_, hchange, ?leaves⟩,
    fun D t hD hb hstart => ?clears, exec_h32Final_of_disturbed, exec_x86Final_of_disturbed, exec_x64Final_of_disturbed⟩
  case marks => rw [disturbed_setMessageByte, (breaksStability_iff s e off b).mpr ⟨hb, hlt, hne⟩, Bool.or_true]
  case leaves =>
    have hstable : breaksStability s e off b = false := by
      rw [← Bool.not_eq_true, breaksStability_iff]
      rintro ⟨hb, hlt, -⟩
      rcases hno with hidle | hbeyond
      · exact Bool.false_ne_true (hidle.symm.trans hb)
      · omega
    rw [disturbed_setMessageByte, hstable, Bool.or_false]
  case clears =>
    rw [runInput_start hD hb] at hstart
    cases hstart
    rw [started_ctl]
    rfl

/-- Settles O47: the state after an accepted START is made of the host registers and the other parts of the state. -/
theorem startForgetsTheEarlierRun : Obligations.StartForgetsTheEarlierRun := by
  intro s D lenQ off p x hD hp
  have hp' := (busyBit_eq_false_iff p).mp hp
  refine ⟨fun h1 hb => ?h32, fun h1 h2 h3 h4 hb => ?x86, fun h1 h2 hb => ?x64⟩
  case h32 =>
    intro h
    have hb' := (busyBit_eq_false_iff _).mp hb
    rw [exec_h32Start hD, exec_h32Start hD, if_pos hb', if_pos hp']
    rfl
  case x86 =>
    intro h
    have hb' := (busyBit_eq_false_iff _).mp hb
    rw [exec_x86Start hD, exec_x86Start hD, if_pos hb', if_pos hp']
    rfl
  case x64 =>
    intro h
    have hb' := (busyBit_eq_false_iff _).mp hb
    rw [exec_x64Start hD, exec_x64Start hD, if_pos hb', if_pos hp']
    rfl

/-! ### Reset (R40, R250) -/

theorem seqOk_reset (lenW : Nat) (e : Engine) : SeqOk lenW e Ctl.reset :=
  ⟨⟨Nat.two_pow_pos lenW, Nat.two_pow_pos lenW, Nat.two_pow_pos lenW⟩, Phase.noConfusion, Phase.noConfusion,
    Phase.noConfusion, Phase.noConfusion⟩

theorem inSpace_nil (lenW : Nat) : Memory.InSpace lenW [] := ⟨rfl, fun _ h => by cases h⟩

/-- Settles O42: an engine that is IDLE with lengths 0 and a message space that lists nothing meet their invariants, and
no event is left. -/
theorem resetMeetsTheInvariants : Obligations.ResetMeetsTheInvariants := by
  refine ⟨(sequencersOk_iff _).mpr ⟨by decide, fun e => ?_⟩, ⟨inSpace_nil _, inSpace_nil _, inSpace_nil _⟩, rfl⟩
  rw [reset_ctl]
  exact seqOk_reset _ e

/-! ### The exhausted schedule (R27, R230, R263) -/

/-- Settles O51: the engine that moves is a busy one, where there is one. -/
theorem exhaustedScheduleRunsABusyEngine : Obligations.ExhaustedScheduleRunsABusyEngine := by
  intro s hi
  cases hn : nextEngine s with
  | none =>
    have hidle := nextEngine_none s hn
    refine ⟨fun _ => step_nil_none s hi hn, fun ⟨e, hb⟩ => ?_⟩
    exact absurd ((hidle e).symm.trans hb) Bool.false_ne_true
  | some e =>
    have hb := nextEngine_busy s e hn
    refine ⟨fun hidle => ?_, fun _ => ⟨e, hb, step_nil_some s e hi hn⟩⟩
    exact absurd ((hidle e).symm.trans hb) Bool.false_ne_true

end Sys2Proof.Machine

namespace Sys2Proof.HostPort

open Sys2Proof.Machine

/-- Settles O41: the event leaves every control part as R40 says, whatever it was, and the message spaces alone. -/
theorem resetEvent : Obligations.ResetEvent := by
  intro s rest hi
  refine ⟨Machine.resetEvent { s with inputs := rest }, step_cons s .reset rest hi, rfl, rfl, rfl, fun e => ?_⟩
  have hidle : ((Machine.resetEvent { s with inputs := rest }).ctl e).phase = .idle := by rw [resetEvent_ctl]; rfl
  refine ⟨hidle, ?_, ?_, ?_, doneWire_of_idle hidle, ?_⟩
  · rw [resetEvent_ctl]; rfl
  · rw [resetEvent_ctl]; rfl
  · rw [hidle, statusWord_idle]
  · rw [resetEvent_msg, msg_withInputs]

end Sys2Proof.HostPort
end

section
/-! PROOFS. Rotates, k-mixes and finalizers lose nothing (spec/40_primitives.md R122, R129). -/

namespace Sys2Proof.Machine

/-! ### Rotates (R122) -/

theorem bijective_of_injective {w : Nat} {f : BitVec w → BitVec w} (h : Function.Injective f) : Function.Bijective f :=
  Finite.injective_iff_bijective.mp h

/-- Bit `i` of the word is bit `i + r` of the rotated word. -/
theorem rotateLeft_injective {w r : Nat} (hr : r < w) : Function.Injective fun x : BitVec w => x.rotateLeft r := by
  intro x y h
  refine BitVec.eq_of_getLsbD_eq fun i hi => ?_
  rw [← getLsbD_rotateLeft_add_mod x hr hi, ← getLsbD_rotateLeft_add_mod y hr hi]
  exact congrArg (fun z : BitVec w => z.getLsbD ((i + r) % w)) h

theorem rotateLeft_zero_right {w : Nat} (hw : 0 < w) (x : BitVec w) : x.rotateLeft 0 = x := by
  refine BitVec.eq_of_getLsbD_eq fun i hi => ?_
  have hbit := getLsbD_rotateLeft_add_mod x hw hi
  rwa [Nat.add_zero, Nat.mod_eq_of_lt hi] at hbit

theorem rotateLeft_allOnes {w r : Nat} (hr : r < w) : (BitVec.allOnes w).rotateLeft r = BitVec.allOnes w := by
  refine BitVec.eq_of_getLsbD_eq fun i hi => ?_
  rw [BitVec.getLsbD_rotateLeft_of_le hr]
  by_cases hwrap : i < r
  · simp [hwrap, hi, show w - r + i < w by omega]
  · simp [hwrap, hi, show i - r < w by omega]

theorem rotl32_bijective {r : Nat} (hr : r < 32) : Function.Bijective fun x => rotl32 x r := by
  simp only [rotl32_eq_rotateLeft _ hr]
  exact bijective_of_injective (rotateLeft_injective hr)

theorem rotl64_bijective {r : Nat} (hr : r < 64) : Function.Bijective fun x => rotl64 x r := by
  simp only [rotl64_eq_rotateLeft _ hr]
  exact bijective_of_injective (rotateLeft_injective hr)

/-- Settles O33: a rotate is the library's; it moves every bit to a place of its own, so two words that rotate to the same
word are equal, and where all bits are equal it changes none. -/
theorem rotatesLoseNothing : Obligations.RotatesLoseNothing := by
  refine ⟨fun x => ?zero32, fun x => ?zero64, fun r hr => ⟨rotl32_zero_left r, ?ones32, rotl32_bijective hr⟩,
    fun r hr => ⟨rotl64_zero_left r, ?ones64, rotl64_bijective hr⟩⟩
  case zero32 => rw [rotl32_eq_rotateLeft x (by decide), rotateLeft_zero_right (by decide)]
  case zero64 => rw [rotl64_eq_rotateLeft x (by decide), rotateLeft_zero_right (by decide)]
  case ones32 => rw [rotl32_eq_rotateLeft _ hr]; exact rotateLeft_allOnes hr
  case ones64 => rw [rotl64_eq_rotateLeft _ hr]; exact rotateLeft_allOnes hr

/-! ### Products with an odd word and xors with a shift (R129) -/

/-- An odd word has no factor in common with `2^w`. -/
theorem mul_odd_injective {w : Nat} {a : BitVec w} (ha : a.getLsbD 0 = true) :
    Function.Injective fun k : BitVec w => k * a := by
  have hodd : Nat.Coprime (2 ^ w) a.toNat := by
    refine Nat.Coprime.pow_left w (Nat.coprime_two_left.mpr ?_)
    rw [BitVec.getLsbD, Nat.testBit_zero] at ha
    exact Nat.odd_iff.mpr (of_decide_eq_true ha)
  intro k k' h
  have hmod : k.toNat * a.toNat ≡ k'.toNat * a.toNat [MOD 2 ^ w] := by
    have hnat := congrArg BitVec.toNat h
    rwa [BitVec.toNat_mul, BitVec.toNat_mul] at hnat
  have hcancel : k.toNat ≡ k'.toNat [MOD 2 ^ w] := Nat.ModEq.cancel_right_of_coprime hodd hmod
  exact BitVec.eq_of_toNat_eq (hcancel.eq_of_lt_of_lt k.isLt k'.isLt)

/-- The bits of a word are those of its xor with the shifted word, from the top down. -/
theorem xor_ushiftRight_injective {w n : Nat} (hn : 0 < n) : Function.Injective fun h : BitVec w => h ^^^ (h >>> n) := by
  intro x y h
  have hbit (d i : Nat) (hi : w ≤ i + d) : x.getLsbD i = y.getLsbD i := by
    induction d generalizing i with
    | zero => rw [BitVec.getLsbD_of_ge x i hi, BitVec.getLsbD_of_ge y i hi]
    | succ d ih =>
      have hi' := congrArg (fun z : BitVec w => z.getLsbD i) h
      simp only [BitVec.getLsbD_xor, BitVec.getLsbD_ushiftRight, ih (n + i) (by omega)] at hi'
      exact Bool.xor_left_inj.mp hi'
  exact BitVec.eq_of_getLsbD_eq fun i _ => hbit w i (Nat.le_add_left w i)

theorem kmix32_bijective {a b : Word32} {r : Nat} (hr : r < 32) (ha : a.getLsbD 0 = true) (hb : b.getLsbD 0 = true) :
    Function.Bijective fun k => kmix32 k a r b :=
  bijective_of_injective
    ((mul_odd_injective hb).comp ((rotl32_bijective hr).injective.comp (mul_odd_injective ha)))

theorem kmix64_bijective {a b : Word64} {r : Nat} (hr : r < 64) (ha : a.getLsbD 0 = true) (hb : b.getLsbD 0 = true) :
    Function.Bijective fun k => kmix64 k a r b :=
  bijective_of_injective
    ((mul_odd_injective hb).comp ((rotl64_bijective hr).injective.comp (mul_odd_injective ha)))

theorem fmix32_bijective : Function.Bijective fmix32 :=
  bijective_of_injective
    ((xor_ushiftRight_injective (n := 16) (by decide)).comp
      ((mul_odd_injective (a := 0xC2B2AE35) (by decide)).comp
        ((xor_ushiftRight_injective (n := 13) (by decide)).comp
          ((mul_odd_injective (a := 0x85EBCA6B) (by decide)).comp (xor_ushiftRight_injective (n := 16) (by decide))))))

theorem fmix64_bijective : Function.Bijective fmix64 :=
  bijective_of_injective
    ((xor_ushiftRight_injective (n := 33) (by decide)).comp
      ((mul_odd_injective (a := 0xC4CEB9FE1A85EC53) (by decide)).comp
        ((xor_ushiftRight_injective (n := 33) (by decide)).comp
          ((mul_odd_injective (a := 0xFF51AFD7ED558CCD) (by decide)).comp
            (xor_ushiftRight_injective (n := 33) (by decide))))))

/-- Settles O34: each mixer is a composition of maps that lose nothing: products with odd words, rotates, and xors with the
shifted word. -/
theorem mixersAreBijections : Obligations.MixersAreBijections := by
  exact ⟨fun a b r _ => kmix32_zero_left a r b, fun a b r _ => kmix64_zero_left a r b,
    fun _ _ _ hr ha hb => kmix32_bijective hr ha hb, fun _ _ _ hr ha hb => kmix64_bijective hr ha hb, fmix32_bijective,
    fmix64_bijective⟩

end Sys2Proof.Machine
end
